-- ==== Sys2Proof/Word.lean ====
section
/-! DEFINITION. The word types of RTTY-TX (spec/00_scope.md R9: every value is unsigned, bit 0 is the least
significant bit) and the two line levels (R9: `LOW` = 0, `HIGH` = 1). -/

namespace Sys2Proof

/-- A command word and a response word: `CMDW` = 32 bits (00_scope.md R6, 30_encoding.md R60, R63). -/
abbrev Word := BitVec 32

/-- A byte of a message, of the queue, of the CRC's input (10_state.md R12, R25, R26). -/
abbrev Byte := BitVec 8

/-- A level of the digital output line, 0 = low, 1 = high (00_scope.md R8, R9). -/
abbrev Level := BitVec 1

/-- A one-bit operand or configuration flag (10_state.md R22, 30_encoding.md R61 format F). -/
abbrev Flag := BitVec 1

/-- `LOW` = 0 (00_scope.md R9). -/
abbrev Level.low : Level := 0#1

/-- `HIGH` = 1 (00_scope.md R9). -/
abbrev Level.high : Level := 1#1

end Sys2Proof
end

