-- ==== Sys2Proof/Syntax.lean ====
section
/-! DEFINITION. The operations of RTTY-TX: the nineteen host commands of spec/30_encoding.md R64 and the TICK event of
R67, one constructor for each row of spec/opcode_table.json. Operands have the widths of the formats of R61. -/

namespace Sys2Proof

/-- One operation of the block. Every constructor but `tick` is a host command (30_encoding.md R64). -/
inductive Instr where
  /-- CRC.INIT (40_crc.md R83) -/
  | crcInit
  /-- CRC.UPD b (40_crc.md R84) -/
  | crcUpd (b : Byte)
  /-- CRC.RD (40_crc.md R85) -/
  | crcRd
  /-- SETLINE b (42_config.md R102) -/
  | setLine (b : Byte)
  /-- SETBAUD r (42_config.md R104) -/
  | setBaud (r : BitVec 24)
  /-- GETBAUD (42_config.md R105) -/
  | getBaud
  /-- SETCKSUM f: 0 = `NONE`, 1 = `CRC16` (42_config.md R107) -/
  | setCksum (f : Flag)
  /-- GETCKSUM (42_config.md R108) -/
  | getCksum
  /-- SETSTOP h: the stop-bit count in half bits (42_config.md R110) -/
  | setStop (h : BitVec 3)
  /-- SETREV f: 0 = normal, 1 = reverse keying (42_config.md R112) -/
  | setRev (f : Flag)
  /-- SETECHO f: 0 = off, 1 = on (42_config.md R113) -/
  | setEcho (f : Flag)
  /-- MSG.CLR (43_message.md R121) -/
  | msgClr
  /-- MSG.PUT b (43_message.md R122) -/
  | msgPut (b : Byte)
  /-- MSG.LEN (43_message.md R123) -/
  | msgLen
  /-- MSG.GET i (43_message.md R124) -/
  | msgGet (i : BitVec 16)
  /-- TXB b: blocking transmission of one byte (44_sync_tx.md R137) -/
  | txb (b : Byte)
  /-- TXMSG: augment, then transmit every byte of the message (44_sync_tx.md R140) -/
  | txMsg
  /-- TXASYNC: augment, then queue every byte of the message under the lock (45_async_tx.md R152) -/
  | txAsync
  /-- BUFSZ (45_async_tx.md R155) -/
  | bufSz
  /-- TICK: the event input; no command word (45_async_tx.md R160, 30_encoding.md R67) -/
  | tick
  deriving DecidableEq, Repr

end Sys2Proof
end

