-- ==== Sys2Proof/WellFormed.lean ====
section
/-! DEFINITION. The well-formed instructions: those that a command word carries. The operand widths stand in the
types of Syntax.lean (spec/30_encoding.md R61), so the one check left is that TICK is no command (R67). An operand
out of its legal range (SETBAUD 0, SETSTOP 5, ...) is well formed: its command's own rule says what it raises
(R65). -/

namespace Sys2Proof

/-- The operation is one of the nineteen host commands: TICK "is not a command word and has no opcode"
(30_encoding.md R67). -/
def Instr.isCommand : Instr → Bool
  | .tick => false
  | .crcInit | .crcUpd _ | .crcRd | .setLine _ | .setBaud _ | .getBaud | .setCksum _ | .getCksum | .setStop _
  | .setRev _ | .setEcho _ | .msgClr | .msgPut _ | .msgLen | .msgGet _ | .txb _ | .txMsg | .txAsync | .bufSz => true

/-- A well-formed instruction: one that has a command word. -/
abbrev WellFormed (i : Instr) : Prop := i.isCommand = true

end Sys2Proof
end

