-- ==== Sys2Proof/Decode.lean ====
section
/-! DEFINITION. The command word: the opcode map of spec/30_encoding.md R64 with the masks of R61, the decoder (total
on every 32-bit word, rejecting by name as R65 says) and the encoder (R64, and the "Encoding" line of each command's
own rule). -/

namespace Sys2Proof

/-- The six operand formats (30_encoding.md R61). -/
inductive Format where
  /-- no operand -/
  | N
  /-- an 8-bit byte in `w[7:0]` -/
  | B
  /-- a 1-bit flag in `w[0]` -/
  | F
  /-- a 3-bit count of half bits in `w[2:0]` -/
  | H
  /-- a 24-bit rate in `w[23:0]` -/
  | R
  /-- a 16-bit index in `w[15:0]` -/
  | I
  deriving DecidableEq, Repr

/-- The bits of the operand field that the format requires to be zero (30_encoding.md R61). -/
def Format.mustBeZero : Format → Word
  | .N => 0x00FFFFFF#32
  | .B => 0x00FFFF00#32
  | .F => 0x00FFFFFE#32
  | .H => 0x00FFFFF8#32
  | .R => 0x00000000#32
  | .I => 0x00FF0000#32

/-- One row of the opcode map (30_encoding.md R64). -/
structure OpcodeRow where
  mnemonic : String
  op : Byte
  format : Format
  deriving DecidableEq, Repr

/-- The nineteen rows of the opcode map (30_encoding.md R64). TICK has none (R67). -/
def opcodeMap : List OpcodeRow :=
  [⟨"CRC.INIT", 0x10#8, .N⟩, ⟨"CRC.UPD", 0x11#8, .B⟩, ⟨"CRC.RD", 0x12#8, .N⟩] ++
  [⟨"SETLINE", 0x20#8, .B⟩, ⟨"SETBAUD", 0x21#8, .R⟩, ⟨"GETBAUD", 0x22#8, .N⟩, ⟨"SETCKSUM", 0x23#8, .F⟩,
   ⟨"GETCKSUM", 0x24#8, .N⟩, ⟨"SETSTOP", 0x25#8, .H⟩, ⟨"SETREV", 0x26#8, .F⟩, ⟨"SETECHO", 0x27#8, .F⟩] ++
  [⟨"MSG.CLR", 0x30#8, .N⟩, ⟨"MSG.PUT", 0x31#8, .B⟩, ⟨"MSG.LEN", 0x32#8, .N⟩, ⟨"MSG.GET", 0x33#8, .I⟩] ++
  [⟨"TXB", 0x40#8, .B⟩, ⟨"TXMSG", 0x41#8, .N⟩] ++
  [⟨"TXASYNC", 0x50#8, .N⟩, ⟨"BUFSZ", 0x51#8, .N⟩]

/-- `mask = 0xFF000000 | (the must-be-zero bits of its format)` (30_encoding.md R64). -/
def OpcodeRow.mask (r : OpcodeRow) : Word := 0xFF000000#32 ||| r.format.mustBeZero

/-- `match = op << 24` (30_encoding.md R64). -/
def OpcodeRow.value (r : OpcodeRow) : Word := r.op.setWidth 32 <<< 24

/-- The word is one of the row's: `w & mask = match` (30_encoding.md R64). -/
abbrev OpcodeRow.covers (r : OpcodeRow) (w : Word) : Prop := w &&& r.mask = r.value

/-- Why a word is illegal (30_encoding.md R65). -/
inductive IllegalReason where
  /-- its `op` is not one of the nineteen of R64 -/
  | unknownOpcode (op : Byte)
  /-- a must-be-zero bit of the format of its `op` is 1 (R61) -/
  | mustBeZeroBit (op : Byte)
  deriving DecidableEq, Repr

/-- What the decoder answers for a word. -/
inductive Decoded where
  | ok (i : Instr)
  | illegal (why : IllegalReason)
  deriving DecidableEq, Repr

/-- `op = w[31:24]` (30_encoding.md R60). -/
def opcodeField (w : Word) : Byte := w.extractLsb' 24 8

/-- `b = w[7:0]` (format B, 30_encoding.md R61). -/
def fieldB (w : Word) : Byte := w.extractLsb' 0 8

/-- `f = w[0]` (format F, 30_encoding.md R61). -/
def fieldF (w : Word) : Flag := w.extractLsb' 0 1

/-- `h = w[2:0]` (format H, 30_encoding.md R61). -/
def fieldH (w : Word) : BitVec 3 := w.extractLsb' 0 3

/-- `r = w[23:0]` (format R, 30_encoding.md R61). -/
def fieldR (w : Word) : BitVec 24 := w.extractLsb' 0 24

/-- `i = w[15:0]` (format I, 30_encoding.md R61). -/
def fieldI (w : Word) : BitVec 16 := w.extractLsb' 0 16

/-- The instruction `i` of a word of format `f`, unless a must-be-zero bit is set (30_encoding.md R61, R65). -/
def checked (f : Format) (w : Word) (i : Instr) : Decoded :=
  if w &&& f.mustBeZero = 0#32 then .ok i else .illegal (.mustBeZeroBit (opcodeField w))

/-- The decoder of command words (30_encoding.md R60, R61, R64, R65). It never gives TICK (R67). -/
def decode (w : Word) : Decoded :=
  match opcodeField w with
  | 0x10#8 => checked .N w .crcInit
  | 0x11#8 => checked .B w (.crcUpd (fieldB w))
  | 0x12#8 => checked .N w .crcRd
  | 0x20#8 => checked .B w (.setLine (fieldB w))
  | 0x21#8 => checked .R w (.setBaud (fieldR w))
  | 0x22#8 => checked .N w .getBaud
  | 0x23#8 => checked .F w (.setCksum (fieldF w))
  | 0x24#8 => checked .N w .getCksum
  | 0x25#8 => checked .H w (.setStop (fieldH w))
  | 0x26#8 => checked .F w (.setRev (fieldF w))
  | 0x27#8 => checked .F w (.setEcho (fieldF w))
  | 0x30#8 => checked .N w .msgClr
  | 0x31#8 => checked .B w (.msgPut (fieldB w))
  | 0x32#8 => checked .N w .msgLen
  | 0x33#8 => checked .I w (.msgGet (fieldI w))
  | 0x40#8 => checked .B w (.txb (fieldB w))
  | 0x41#8 => checked .N w .txMsg
  | 0x50#8 => checked .N w .txAsync
  | 0x51#8 => checked .N w .bufSz
  | op => .illegal (.unknownOpcode op)

/-- The command word of an instruction: its opcode with its operand zero-extended (30_encoding.md R62, R64). TICK has
none (R67). -/
def encode : Instr → Option Word
  | .crcInit => some 0x10000000#32
  | .crcUpd b => some (0x11000000#32 ||| b.setWidth 32)
  | .crcRd => some 0x12000000#32
  | .setLine b => some (0x20000000#32 ||| b.setWidth 32)
  | .setBaud r => some (0x21000000#32 ||| r.setWidth 32)
  | .getBaud => some 0x22000000#32
  | .setCksum f => some (0x23000000#32 ||| f.setWidth 32)
  | .getCksum => some 0x24000000#32
  | .setStop h => some (0x25000000#32 ||| h.setWidth 32)
  | .setRev f => some (0x26000000#32 ||| f.setWidth 32)
  | .setEcho f => some (0x27000000#32 ||| f.setWidth 32)
  | .msgClr => some 0x30000000#32
  | .msgPut b => some (0x31000000#32 ||| b.setWidth 32)
  | .msgLen => some 0x32000000#32
  | .msgGet i => some (0x33000000#32 ||| i.setWidth 32)
  | .txb b => some (0x40000000#32 ||| b.setWidth 32)
  | .txMsg => some 0x41000000#32
  | .txAsync => some 0x50000000#32
  | .bufSz => some 0x51000000#32
  | .tick => none

/-- The command word that the low `nbits` bits of the number `w` give; every bit above them is 0. -/
def tableWord (nbits w : Nat) : Word := BitVec.ofNat 32 (w % 2 ^ nbits)

/-- The instruction the decoder reads from a word numbered as spec/opcode_table.json numbers it. -/
def decodeTableWord (nbits w : Nat) : Option Instr :=
  match decode (tableWord nbits w) with
  | .ok i => some i
  | .illegal _ => none

end Sys2Proof
end

