-- ==== Sys2Proof/Config.lean ====
section
/-! DEFINITION. What is fixed for the block (the parameters of spec/00_scope.md R6) and the free values: two
opaque constants that stand for values the spec says do not exist or are not defined. -/

namespace Sys2Proof.Config

/-- `QCAP`: the capacity of the Pending-Byte Queue, "255 elements" (00_scope.md R6, 10_state.md R26). -/
abbrev qCap : Nat := 255

/-- `ASCIIBITS`: data bits sent per byte (00_scope.md R6). -/
abbrev asciiBits : Nat := 7

/-- `CRC_INIT` (00_scope.md R6, 40_crc.md R80). -/
abbrev crcInit : BitVec 16 := 0xFFFF#16

/-- `CRC_POLY`: x^16 + x^12 + x^5 + 1 without its top term (00_scope.md R6, 40_crc.md R80). -/
abbrev crcPoly : BitVec 16 := 0x1021#16

/-- `HALF_US`: microseconds in half a second (00_scope.md R6, 42_config.md R103). -/
abbrev halfUs : Nat := 500000

/-- `BAUD_MIN` (00_scope.md R6). -/
abbrev baudMin : Nat := 1

/-- `BAUD_MAX` (00_scope.md R6). -/
abbrev baudMax : Nat := 500000

/-- `DELAY_LIMIT`: the argument from which the external delay primitive loses accuracy, about 16000
microseconds; "a hazard bound, read by no rule" (00_scope.md R6, 70_reset_and_hazards.md R222). No meaning
reads it. -/
abbrev delayLimit : Nat := 16000

/-- The value `State.reset` gives the OPEN parameter `MSGCAP`, 1 to 65535 (00_scope.md R6): the largest value it
may have. DESIGN CHOICE, assumption log 3: the capacity itself stands in `State.msgCap`, so that every
statement holds for every capacity; no statement rests on this number. -/
abbrev msgCapAtReset : BitVec 16 := 65535#16

/-- FREE VALUE (assumption log 4): what a read of `cur_byte` gives while nothing has written it. The spec says the
register then "holds no value" and that no run reads it so (10_state.md R23): nothing can be proved of this byte. -/
opaque unwrittenCurByte : Byte

/-- FREE VALUE (assumption log 5): the quotient of a division by zero. `floor(a / b)` is "defined only for `b` ≥ 1"
(00_scope.md R9), and no run divides by zero (42_config.md R105). -/
opaque quotientByZero : Nat → Nat

end Sys2Proof.Config
end

