-- ==== Sys2Proof/Machine/State.lean ====
section
/-! DEFINITION. The state of RTTY-TX as plain data (spec/10_state.md R10 to R31), the faults and refusals a step can
end in (spec/60_exceptions.md R186, classed as spec/93_implementation_defined.md Part 1 K1 classes them), and the state
after reset (10_state.md R30). -/

namespace Sys2Proof.Machine

/-- The Transmission Phase (10_state.md R17). -/
inductive Phase where
  /-- idle/fetch -/
  | start
  /-- emitting data bits -/
  | sending
  /-- emitting stop bit(s) -/
  | stop
  deriving DecidableEq, Repr

/-- The output events (00_scope.md R8). -/
inductive Event where
  /-- configure digital line `id` as an output -/
  | lineMode (id : Byte)
  /-- drive line `id` to `level` -/
  | lineSet (id : Byte) (level : Level)
  /-- busy-wait `n` microseconds, `n` a natural number -/
  | delay (n : Nat)
  /-- hand the byte `b` to the echo sink -/
  | echo (b : Byte)
  deriving DecidableEq, Repr

/-- The two execution contexts (00_scope.md R7, 60_exceptions.md R195). -/
inductive Context where
  /-- the main/application context: issues commands, runs their micro-steps -/
  | host
  /-- the periodic-interrupt context: the TICK event -/
  | tick
  deriving DecidableEq, Repr

/-- Where the byte that a micro-step of TXB sends comes from. -/
inductive ByteSource where
  /-- the operand of TXB (44_sync_tx.md R137) -/
  | operand (b : Byte)
  /-- `MSG[j]`, in the TXB of byte `j` of TXMSG (44_sync_tx.md R140) -/
  | message (j : Nat)
  deriving DecidableEq, Repr

/-- A micro-step of a host command still to run (10_state.md R18, 20_memory.md R50). -/
inductive MicroStep where
  /-- drive the start-bit level (44_sync_tx.md R137, micro-step 1) -/
  | driveStart
  /-- drive data bit `k` of the byte (44_sync_tx.md R137, micro-steps 3+2k) -/
  | driveData (source : ByteSource) (k : Fin 7)
  /-- hold the level for one bit period (44_sync_tx.md R136; R137, micro-steps 2 and 4+2k) -/
  | holdBit
  /-- mirror the byte to the echo sink when `echo` = 1 (44_sync_tx.md R137, micro-step 17) -/
  | echo (source : ByteSource)
  /-- drive the stop-bit level (44_sync_tx.md R137, micro-step 18) -/
  | driveStop
  /-- hold the stop level (44_sync_tx.md R137, micro-step 19) -/
  | holdStop
  /-- `lock <- 1` (45_async_tx.md R152, micro-step 2) -/
  | setLock
  /-- `push(MemRead(j, 1))` (45_async_tx.md R152, micro-step 3+j) -/
  | push (j : Nat)
  /-- `lock <- 0` (45_async_tx.md R152, micro-step 3+n) -/
  | clearLock
  deriving DecidableEq, Repr

/-- The fields of the Line Configuration (10_state.md R22), as `CfgUnwritten(name)` names them. -/
inductive ConfigField where
  | lineId
  | timestep
  | cksum
  | stopHalves
  | rev
  | echo
  deriving DecidableEq, Repr

/-- A sparse byte memory: (index, byte) pairs, indices strictly rising. An index that is not listed holds NO VALUE, as
every byte of `MSG` does after reset (10_state.md R30); assumption log 6. -/
abbrev Memory := List Host.Cell

/-- The canonical form: indices strictly rising. (An unlisted index holds no value, so no entry can equal what an
unlisted index reads as.) -/
abbrev Memory.wf (m : Memory) : Prop := m.Pairwise fun c d => c.1 < d.1

/-- The state of the block. An `Option` register is one whose value after reset the spec gives as UNWRITTEN, "the state
of a register that nothing has written since reset; it holds no value" (00_scope.md glossary, 10_state.md R23, R30):
`none` is that state of the spec; assumption log 1. -/
structure State where
  /-- running value of the Checksum Engine, 16 bits (10_state.md R11) -/
  crc : BitVec 16
  /-- the byte in flight in the asynchronous engine, 8 bits, unwritten after reset (10_state.md R12) -/
  curByte : Option Byte
  /-- the level last driven on the output line, 1 bit, unwritten after reset (10_state.md R13) -/
  lineLevel : Option Level
  /-- Transmission Phase (10_state.md R17) -/
  phase : Phase
  /-- current bit index, 3 bits (10_state.md R16) -/
  bitIdx : BitVec 3
  /-- Queue Lock Flag, 1 bit: `true` = held (10_state.md R19) -/
  lock : Bool
  /-- output-line identifier, 8 bits (10_state.md R22) -/
  lineId : Option Byte
  /-- half-bit timestep in microseconds, 32 bits (10_state.md R22) -/
  timestep : Option (BitVec 32)
  /-- checksum mode, 1 bit: 0 = `NONE`, 1 = `CRC16` (10_state.md R22) -/
  cksum : Option Flag
  /-- twice the stop-bit count, 3 bits (10_state.md R22, 42_config.md R109) -/
  stopHalves : Option (BitVec 3)
  /-- polarity flag, 1 bit: 1 = reverse (10_state.md R22) -/
  rev : Option Flag
  /-- echo flag, 1 bit (10_state.md R22) -/
  echo : Option Flag
  /-- the Message Buffer `MSG` (10_state.md R25, 20_memory.md R40 to R42) -/
  msg : Memory
  /-- number of valid bytes of `MSG`, 16 bits (10_state.md R25) -/
  msgLen : BitVec 16
  /-- the Pending-Byte Queue `Q`, oldest byte first (10_state.md R26); its occupancy `qsize` is the length -/
  queue : List Byte
  /-- the output event history `EV`, oldest event first (00_scope.md R8, 10_state.md R28) -/
  ev : List Event
  /-- the response words the command port has given, oldest first (30_encoding.md R63); assumption log 7 -/
  responses : List Word
  /-- the micro-steps of the command in progress still to run, first one first; `[]` between commands
  (10_state.md R18) -/
  pending : List MicroStep
  /-- the command words the HOST has still to issue, in order (00_scope.md R7, R8); assumption log 8 -/
  port : List Word
  /-- which context moves at each of the next steps: the interleaving of the run (20_memory.md R50), past whose end
  the HOST moves; assumption log 9 -/
  turns : List Context
  /-- the OPEN parameter `MSGCAP`, the capacity of the Message Buffer in bytes (00_scope.md R6), "the model takes it
  as an argument": no rule writes it; assumption log 3 -/
  msgCap : BitVec 16
  deriving DecidableEq, Repr

/-- The machine stops: an outcome of the model where the source leaves the behaviour undefined (60_exceptions.md R186,
classed `fault` in 93_implementation_defined.md Part 1). Each is SAFE: the run ends and nothing can be proved of what
the hardware does then (60_exceptions.md R187). -/
inductive Fault where
  /-- Raised by GETBAUD, GETCKSUM, TXMSG, TXASYNC, TXB, the micro-steps of TXB and TXMSG, and TICK, when they read a
  configuration field that nothing has written since reset (10_state.md R23, U6). Safe. -/
  | cfgUnwritten (field : ConfigField)
  /-- Raised by SETBAUD for `r` = 0 and `r` > 500000 (42_config.md R104, U4, U5). Safe. -/
  | baudRange (r : BitVec 24)
  /-- Raised by TXMSG and TXASYNC when the suffix and newline do not fit the Message Buffer (43_message.md R128, U1).
  Safe. -/
  | msgOverflow (len : BitVec 16)
  /-- Raised by MSG.GET, by the checksum of TXMSG and TXASYNC, and by the micro-steps that read a byte of `MSG` (data bits
  and echo of TXMSG, push of TXASYNC), when that byte holds no value. In no state that a run from reset reaches
  (assumption log 6). Safe. -/
  | msgByteUnwritten
  deriving DecidableEq, Repr

/-- No meaning for the command: this spec's interface does not admit the input (60_exceptions.md R186, classed `refuse`
in 93_implementation_defined.md Part 1). Each is SAFE: the run ends. -/
inductive Refusal where
  /-- Raised by `exec` for an instruction whose meaning is not written yet. Safe. -/
  | notModelled (mnemonic : String)
  /-- Raised by the command port for a word that is none of the nineteen commands (30_encoding.md R65, U9). Safe. -/
  | illegalCommand (w : Word)
  /-- Raised by SETSTOP for `h` not 2, 3 or 4 (42_config.md R110, U10). Safe. -/
  | stopRange (h : BitVec 3)
  /-- Raised by MSG.GET for an index at or past `msg_len` (43_message.md R124, U3). Safe. -/
  | msgIndex (i : BitVec 16)
  /-- Raised by MSG.PUT into a full buffer (43_message.md R122, U2). Safe. -/
  | msgOverflow (len : BitVec 16)
  deriving DecidableEq, Repr

/-- What a meaning answers. -/
abbrev Result := Host.Outcome State Fault Refusal

/-- The state after reset (10_state.md R30, 70_reset_and_hazards.md R210, R211): every piece of the spec's state at
the value R30 gives. The model's own fields: no response given, no command in progress or waiting, no schedule, and
the capacity of assumption log 3. -/
def State.reset : State where
  crc := 0xFFFF#16
  curByte := none
  lineLevel := none
  phase := .start
  bitIdx := 0#3
  lock := false
  lineId := none
  timestep := none
  cksum := none
  stopHalves := none
  rev := none
  echo := none
  msg := []
  msgLen := 0#16
  queue := []
  ev := []
  responses := []
  pending := []
  port := []
  turns := []
  msgCap := Config.msgCapAtReset

end Sys2Proof.Machine
end

