-- ==== Sys2Proof/Machine/Flags.lean ====
section
/-! DEFINITION. The flags. The block has no condition codes and no command sets a flag as a side effect of arithmetic
(spec/10_state.md R20); its flags are the Queue Lock Flag (R19) and the one-bit configuration fields `rev`, `echo` and
`cksum` (R22). -/

namespace Sys2Proof.Machine

/-- `lock <- 1`: the flag is held (10_state.md R19; 45_async_tx.md R152, micro-step 2). -/
def State.holdLock (s : State) : State := { s with lock := true }

/-- `lock <- 0`: the flag is not held (10_state.md R19; 45_async_tx.md R152, last micro-step). -/
def State.releaseLock (s : State) : State := { s with lock := false }

/-- The checksum mode is `CRC16` (10_state.md R22: 1 = `CRC16`). -/
def isCrc16 (f : Flag) : Bool := f == 1#1

/-- The echo is on (10_state.md R22: 1 = on). -/
def isEchoOn (f : Flag) : Bool := f == 1#1

/-- The stop-bit count is 2, the one the asynchronous STOP phase tests for: `stop_halves = 4` (45_async_tx.md R163). -/
def isTwoStopBits (sh : BitVec 3) : Bool := sh == 4#3

end Sys2Proof.Machine
end

