-- ==== Sys2Proof/Machine/Operands.lean ====
section
/-! DEFINITION. Operand and result arithmetic: the quotient `floor(a / b)` of spec/00_scope.md R9, the half-bit
timestep and the baud derived from it (spec/42_config.md R103, R105), the delay of the stop hold (spec/44_sync_tx.md
R137, R138), and the characters of augmentation (spec/43_message.md R125). All operands are unsigned and zero-extended
(spec/30_encoding.md R62). -/

namespace Sys2Proof.Machine

/-- `zext_32` of a value of any of the block's widths: the response word (30_encoding.md R62, R63). -/
def zext32 {n : Nat} (v : BitVec n) : Word := v.setWidth 32

/-- `floor(a / b)`, "defined only for `b` ≥ 1" (00_scope.md R9); for `b` = 0 a free value (assumption log 5). -/
def floorDiv (a b : Nat) : Nat := if b = 0 then Config.quotientByZero a else a / b

/-- `timestep_of(rate) = floor(500000 / rate)` (42_config.md R103). -/
def timestepOf (r : BitVec 24) : BitVec 32 := BitVec.ofNat 32 (floorDiv Config.halfUs r.toNat)

/-- The rate is legal for SETBAUD: neither 0 nor above 500000 (42_config.md R104). -/
def baudLegal (r : BitVec 24) : Bool := Config.baudMin ≤ r.toNat && r.toNat ≤ Config.baudMax

/-- GETBAUD's response, `floor(500000 / timestep)` (42_config.md R105). -/
def baudOf (ts : BitVec 32) : Word := BitVec.ofNat 32 (floorDiv Config.halfUs ts.toNat)

/-- The stop-bit count in half bits is legal: 2, 3 or 4 (42_config.md R109, R110). -/
def stopLegal (h : BitVec 3) : Bool := h == 2#3 || h == 3#3 || h == 4#3

/-- Each of the two delays of the stop hold: `floor(stop_halves × timestep / 2)` (44_sync_tx.md R137, R138). -/
def stopDelay (sh : BitVec 3) (ts : BitVec 32) : Nat := sh.toNat * ts.toNat / 2

/-- The asterisk that opens the checksum suffix (43_message.md R125). -/
def asterisk : Byte := 0x2A#8

/-- The newline that closes the augmented message (43_message.md R125). -/
def newline : Byte := 0x0A#8

/-- The uppercase hexadecimal digit of `n` (43_message.md R125). -/
def hexDigit (n : BitVec 4) : Byte :=
  if n.toNat ≤ 9 then 0x30#8 + n.setWidth 8 else 0x41#8 + (n.setWidth 8 - 10#8)

/-- The checksum suffix: `*` and the four digits of the CRC, most significant first (43_message.md R127). -/
def suffix (c : BitVec 16) : List Byte :=
  [asterisk, hexDigit (c.extractLsb' 12 4), hexDigit (c.extractLsb' 8 4), hexDigit (c.extractLsb' 4 4),
   hexDigit (c.extractLsb' 0 4)]

end Sys2Proof.Machine
end

