-- ==== Sys2Proof/Machine/Ops.lean ====
section
/-! DEFINITION. The named operations over the state: the Message Buffer's primitives (spec/20_memory.md R40, R41), the
queue's `push` and `pop` (spec/45_async_tx.md R156, R157), `emit` (spec/00_scope.md R9), the response (spec/30_encoding.md
R63), `cfg` (spec/10_state.md R23), and taking a tick and returning from one (spec/60_exceptions.md R184, R185). -/

namespace Sys2Proof.Machine

/-! ### Memory -/

/-- The byte the memory holds at an index, if it holds one. -/
def memLookup : Memory → Nat → Option Byte
  | [], _ => none
  | (k, v) :: m, a => if a = k then some v else memLookup m a

/-- The memory with `v` at index `a`, every other index as it was, in the canonical form. -/
def memStore : Memory → Nat → Byte → Memory
  | [], a, v => [(a, v)]
  | (k, w) :: m, a, v =>
    if a < k then (a, v) :: (k, w) :: m
    else if a = k then (a, v) :: m
    else (k, w) :: memStore m a v

/-- The `n` bytes from index `a` on, if each holds a value. -/
def memBytes (m : Memory) : Nat → Nat → Option (List Byte)
  | _, 0 => some []
  | a, n + 1 =>
    match memLookup m a, memBytes m (a + 1) n with
    | some b, some bs => some (b :: bs)
    | _, _ => none

/-- `MemRead(a, 1)`: `MSG[a]` for `a` < `msg_len`, no value otherwise (20_memory.md R40, 10_state.md R25). -/
def State.memRead (s : State) (a : Nat) : Option Byte :=
  if a < s.msgLen.toNat then memLookup s.msg a else none

/-- The byte that a micro-step of TXB sends: the operand, or `MSG[j]` read now (44_sync_tx.md R137, R140). -/
def State.sourceByte (s : State) : ByteSource → Option Byte
  | .operand b => some b
  | .message j => s.memRead j

/-- `MSG[0 .. msg_len-1]`: the message (43_message.md R120), if each of its bytes holds a value. -/
def State.message (s : State) : Option (List Byte) := memBytes s.msg 0 s.msgLen.toNat

/-- `MemWrite(msg_len, 1, b); msg_len <- msg_len + 1`, the only way `MSG` is written (20_memory.md R41). -/
def State.appendByte (s : State) (b : Byte) : State :=
  { s with msg := memStore s.msg s.msgLen.toNat b, msgLen := s.msgLen + 1#16 }

/-- Appends each byte in order (43_message.md R128). -/
def State.appendBytes (s : State) (bs : List Byte) : State := bs.foldl State.appendByte s

/-- The buffer has room for `n` more bytes: `msg_len + n ≤ MSGCAP` (43_message.md R122, R128). -/
def State.hasRoom (s : State) (n : Nat) : Bool := s.msgLen.toNat + n ≤ s.msgCap.toNat

/-! ### The queue -/

/-- `qsize`, the occupancy of the queue (10_state.md R26). -/
def State.qsize (s : State) : Nat := s.queue.length

/-- `push(b)`: appends at the tail; when the queue is full the byte is lost (45_async_tx.md R156). -/
def State.push (s : State) (b : Byte) : State :=
  if s.qsize < Config.qCap then { s with queue := s.queue ++ [b] } else s

/-- `pop()`: the oldest byte and the state without it; nothing of an empty queue (45_async_tx.md R157). -/
def State.pop (s : State) : Option (Byte × State) :=
  match s.queue with
  | [] => none
  | b :: rest => some (b, { s with queue := rest })

/-! ### Output -/

/-- `emit E`: appends the event to the history `EV` (00_scope.md R9). -/
def State.emit (s : State) (e : Event) : State := { s with ev := s.ev ++ [e] }

/-- `emit LINE_SET(id, level); line_level <- level` (10_state.md R13). -/
def State.driveTo (s : State) (id : Byte) (level : Level) : State :=
  { s.emit (.lineSet id level) with lineLevel := some level }

/-- `return w`: the command's response word (30_encoding.md R63). -/
def State.respond (s : State) (w : Word) : State := { s with responses := s.responses ++ [w] }

/-! ### Reading a register that may be unwritten -/

/-- `cfg(name)`: goes on with the field's value if it has been written, otherwise raises `CfgUnwritten(name)`
(10_state.md R23; 60_exceptions.md R186, R187; 93_implementation_defined.md U6, treatment `fault`). -/
def withCfg {α : Type} (value : Option α) (name : ConfigField) (k : α → Result) : Result :=
  match value with
  | some v => k v
  | none => .fault (.cfgUnwritten name)

/-- Goes on with a byte read from `MSG` if it holds a value; one that holds none, in no reachable state, stops
(assumption log 6). -/
def withByte (value : Option Byte) (k : Byte → Result) : Result :=
  match value with
  | some b => k b
  | none => .fault .msgByteUnwritten

/-- `cur_byte` as phase SENDING reads it (10_state.md R12, R23); a free value while unwritten (assumption log 4). -/
def State.readCurByte (s : State) : Byte := s.curByte.getD Config.unwrittenCurByte

/-! ### Commands in progress, and the tick interrupt -/

/-- Leaves the rest of a multi-step command to run (10_state.md R18, 30_encoding.md R66). -/
def State.leave (s : State) (rest : List MicroStep) : State := { s with pending := rest }

/-- Taking a tick: the turn is used up and nothing else changes. It "saves nothing and changes no mode", and the
command in progress keeps its position, `pending` (60_exceptions.md R184). The return from it is the next turn: the
command resumes at its next micro-step, and nothing is restored because nothing was saved (R185). -/
def State.useTurn (s : State) : State := { s with turns := s.turns.tail }

/-- A command word put at the head of the command port with the HOST to move and no command in progress, so that the
next step issues it (30_encoding.md R60). -/
def State.present (s : State) (w : Word) : State :=
  { s with pending := [], turns := .host :: s.turns, port := w :: s.port }

end Sys2Proof.Machine
end

