-- ==== Sys2Proof/Machine/Frame.lean ====
section
/-! DEFINITION. The Frame Encoder (spec/41_frame_encoder.md R90 to R96): three combinational functions of the polarity
flag, and driving the line to the level one of them gives. -/

namespace Sys2Proof.Machine

/-- `startBitLevel() = LOW ^ cfg(rev)` (41_frame_encoder.md R91). -/
def startBitLevel (rev : Flag) : Level := Level.low ^^^ rev

/-- `stopBitLevel() = HIGH ^ cfg(rev)` (41_frame_encoder.md R92). -/
def stopBitLevel (rev : Flag) : Level := Level.high ^^^ rev

/-- `dataBitLevel(byte, i) = byte[i] ^ cfg(rev)` (41_frame_encoder.md R93, for `i` from 0 to 7). DESIGN CHOICE, assumption
log 20: for an index of 8 or more, of which the spec says nothing and which no meaning uses, the bit is taken as 0. -/
def dataBitLevel (byte : Byte) (i : Nat) (rev : Flag) : Level := byte.extractLsb' i 1 ^^^ rev

/-- The nine levels of a byte's frame (41_frame_encoder.md R94). -/
def frameLevels (b : Byte) (rev : Flag) : List Level :=
  [startBitLevel rev] ++ ((List.range Config.asciiBits).map fun i => dataBitLevel b i rev) ++ [stopBitLevel rev]

/-- Goes on with the line and the polarity as they stand now (41_frame_encoder.md R90, 10_state.md R24). `line_id` is
read before `rev` (assumption log 10). -/
def withLine (s : State) (k : Byte → Flag → Result) : Result :=
  withCfg s.lineId .lineId fun id => withCfg s.rev .rev fun rev => k id rev

/-- `emit LINE_SET(cfg(line_id), level); line_level <- that level`, the level a function of the polarity
(44_sync_tx.md R137, 45_async_tx.md R161 to R163). -/
def drive (level : Flag → Level) (s : State) : Result :=
  withLine s fun id rev => .next (s.driveTo id (level rev))

end Sys2Proof.Machine
end

