-- ==== Sys2Proof/Machine/Crc.lean ====
section
/-! DEFINITION. The Checksum Engine (spec/40_crc.md): the CRC16-CCITT generator and the commands CRC.INIT, CRC.UPD and
CRC.RD. -/

namespace Sys2Proof.Machine

/-- One of the eight shifts of the byte update (40_crc.md R81). -/
def crc16Shift (x : BitVec 16) : BitVec 16 :=
  if x.getLsbD 15 then (x <<< 1) ^^^ Config.crcPoly else x <<< 1

/-- `crc16_update(c, b)`, the normative bit-serial form (40_crc.md R81). -/
def crc16Update (c : BitVec 16) (b : Byte) : BitVec 16 :=
  Nat.repeat crc16Shift 8 (c ^^^ (b ++ 0x00#8))

/-- `crc16_update_fold(c, b)`, the table-free form of 40_crc.md R82. No meaning uses it. -/
def crc16UpdateFold (c : BitVec 16) (b : Byte) : BitVec 16 :=
  let t₀ : Byte := (c >>> 8).setWidth 8 ^^^ b
  let t : Byte := t₀ ^^^ (t₀ >>> 4)
  (c <<< 8) ^^^ t.setWidth 16 ^^^ (t.setWidth 16 <<< 5) ^^^ (t.setWidth 16 <<< 12)

/-- `crc16(bs)`, the source's `computeCRC16` (40_crc.md R86). -/
def crc16 (bs : List Byte) : BitVec 16 := bs.foldl crc16Update Config.crcInit

/-- CRC.INIT: `crc <- 0xFFFF` (40_crc.md R83). -/
def execCrcInit (s : State) : Result := .next { s with crc := Config.crcInit }

/-- CRC.UPD b: `crc <- crc16_update(crc, b)` (40_crc.md R84). -/
def execCrcUpd (b : Byte) (s : State) : Result := .next { s with crc := crc16Update s.crc b }

/-- CRC.RD: `return zext_32(crc)` (40_crc.md R85). -/
def execCrcRd (s : State) : Result := .next (s.respond (zext32 s.crc))

end Sys2Proof.Machine
end

