-- ==== Sys2Proof/Machine/Message.lean ====
section
/-! DEFINITION. The Message Buffer commands and frame augmentation (spec/43_message.md R120 to R130). -/

namespace Sys2Proof.Machine

/-- MSG.CLR: `msg_len <- 0`; no byte of `MSG` is written (43_message.md R121). -/
def execMsgClr (s : State) : Result := .next { s with msgLen := 0#16 }

/-- MSG.PUT b: appends `b`, or `MsgOverflow(msg_len)` when the buffer is full (43_message.md R122). -/
def execMsgPut (b : Byte) (s : State) : Result :=
  if s.hasRoom 1 then .next (s.appendByte b) else .refused (.msgOverflow s.msgLen)

/-- MSG.LEN: `return zext_32(msg_len)` (43_message.md R123). -/
def execMsgLen (s : State) : Result := .next (s.respond (zext32 s.msgLen))

/-- MSG.GET i: `return zext_32(MemRead(i, 1))`, or `MsgIndex(i)` at or past the length (43_message.md R124). -/
def execMsgGet (i : BitVec 16) (s : State) : Result :=
  if s.msgLen ≤ i then .refused (.msgIndex i)
  else withByte (s.memRead i.toNat) fun b => .next (s.respond (zext32 b))

/-- How many bytes `augment()` appends: 6 with the checksum, 1 without (43_message.md R128). -/
def augmentNeed (mode : Flag) : Nat := if isCrc16 mode then 6 else 1

/-- The bytes `augment()` appends to the message `bs`: the checksum suffix in mode `CRC16`, none in mode `NONE`, and
the newline (43_message.md R126, R127, R128). -/
def augmentTail (mode : Flag) (bs : List Byte) : List Byte :=
  (if isCrc16 mode then suffix (crc16 bs) else []) ++ [newline]

/-- `augment()`, then `k`: the first micro-step of TXMSG and TXASYNC (43_message.md R128). The message is read in mode
`CRC16` only; the register `crc` is neither read nor written (R126). -/
def augment (s : State) (k : State → Result) : Result :=
  withCfg s.cksum .cksum fun mode =>
    if s.hasRoom (augmentNeed mode) then
      if isCrc16 mode then
        match s.message with
        | some bs => k (s.appendBytes (augmentTail mode bs))
        | none => .fault .msgByteUnwritten
      else k (s.appendBytes (augmentTail mode []))
    else .fault (.msgOverflow s.msgLen)

end Sys2Proof.Machine
end

