-- ==== Sys2Proof/Machine/AsyncTx.lean ====
section
/-! DEFINITION. The Asynchronous Transmission Engine (spec/45_async_tx.md R150 to R170): TXASYNC and its micro-steps,
BUFSZ, and the TICK event. -/

namespace Sys2Proof.Machine

/-- `lock <- 1` (45_async_tx.md R152, micro-step 2). -/
def microSetLock (s : State) : Result := .next s.holdLock

/-- `push(MemRead(j, 1))` (45_async_tx.md R152, micro-step 3+j). -/
def microPush (j : Nat) (s : State) : Result := withByte (s.memRead j) fun b => .next (s.push b)

/-- `lock <- 0` (45_async_tx.md R152, micro-step 3+n). -/
def microClearLock (s : State) : Result := .next s.releaseLock

/-- Micro-steps 2 to 3+n of TXASYNC for an augmented message of `n` bytes (45_async_tx.md R152). -/
def txAsyncRest (n : Nat) : List MicroStep := [.setLock] ++ (List.range n).map .push ++ [.clearLock]

/-- TXASYNC: `augment()` now; lock, pushes and unlock left to run (45_async_tx.md R152). -/
def execTxAsync (s : State) : Result :=
  augment s fun t => .next (t.leave (txAsyncRest t.msgLen.toNat))

/-- BUFSZ: `return zext_32(qsize)` (45_async_tx.md R155). -/
def execBufSz (s : State) : Result := .next (s.respond (BitVec.ofNat 32 s.qsize))

/-- TICK in phase START: pop a byte and drive its start level, unless locked or empty (45_async_tx.md R161). -/
def tickStart (s : State) : Result :=
  if s.lock then .next s
  else
    match s.pop with
    | some (b, t) => drive startBitLevel { t with curByte := some b, bitIdx := 0#3, phase := .sending }
    | none => .next s

/-- TICK in phase SENDING: drive the current data bit and advance, or after the last the stop level
(45_async_tx.md R162). -/
def tickSending (s : State) : Result :=
  if s.bitIdx.toNat < Config.asciiBits then
    drive (dataBitLevel s.readCurByte s.bitIdx.toNat) { s with bitIdx := s.bitIdx + 1#3 }
  else drive stopBitLevel { s with phase := .stop }

/-- TICK in phase STOP: drive the stop level again when `stop_halves` = 4; in all cases back to START
(45_async_tx.md R163). -/
def tickStop (s : State) : Result :=
  withCfg s.stopHalves .stopHalves fun sh =>
    if isTwoStopBits sh then drive stopBitLevel { s with phase := .start } else .next { s with phase := .start }

/-- TICK: one step of the three-state machine, by the phase (45_async_tx.md R160, R164). -/
def execTick (s : State) : Result :=
  match s.phase with
  | .start => tickStart s
  | .sending => tickSending s
  | .stop => tickStop s

end Sys2Proof.Machine
end

