-- ==== Sys2Proof/Machine/LineConfig.lean ====
section
/-! DEFINITION. The Line Configuration commands (spec/42_config.md R100 to R113). Each is a single micro-step. -/

namespace Sys2Proof.Machine

/-- SETLINE b: `line_id <- b; emit LINE_MODE(b)` (42_config.md R102). -/
def execSetLine (b : Byte) (s : State) : Result := .next ({ s with lineId := some b }.emit (.lineMode b))

/-- SETBAUD r: `timestep <- floor(500000 / r)`, or `BaudRange(r)` (42_config.md R104). -/
def execSetBaud (r : BitVec 24) (s : State) : Result :=
  if baudLegal r then .next { s with timestep := some (timestepOf r) } else .fault (.baudRange r)

/-- GETBAUD: `return zext_32(floor(500000 / cfg(timestep)))` (42_config.md R105). -/
def execGetBaud (s : State) : Result :=
  withCfg s.timestep .timestep fun ts => .next (s.respond (baudOf ts))

/-- SETCKSUM f: `cksum <- f` (42_config.md R107). -/
def execSetCksum (f : Flag) (s : State) : Result := .next { s with cksum := some f }

/-- GETCKSUM: `return zext_32(cfg(cksum))` (42_config.md R108). -/
def execGetCksum (s : State) : Result :=
  withCfg s.cksum .cksum fun f => .next (s.respond (zext32 f))

/-- SETSTOP h: `stop_halves <- h`, or `StopRange(h)` (42_config.md R110). -/
def execSetStop (h : BitVec 3) (s : State) : Result :=
  if stopLegal h then .next { s with stopHalves := some h } else .refused (.stopRange h)

/-- SETREV f: `rev <- f`; the line is not driven (42_config.md R112). -/
def execSetRev (f : Flag) (s : State) : Result := .next { s with rev := some f }

/-- SETECHO f: `echo <- f` (42_config.md R113). -/
def execSetEcho (f : Flag) (s : State) : Result := .next { s with echo := some f }

end Sys2Proof.Machine
end

