-- ==== Sys2Proof/Machine/SyncTx.lean ====
section
/-! DEFINITION. The Synchronous Transmitter (spec/44_sync_tx.md R135 to R141): TXB, TXMSG and their micro-steps. -/

namespace Sys2Proof.Machine

/-- Drives the start-bit level (44_sync_tx.md R137, micro-step 1). -/
def microDriveStart (s : State) : Result := drive startBitLevel s

/-- Drives data bit `k` of the byte (44_sync_tx.md R137, micro-step 3+2k). Of `MSG` it reads that one byte (20_memory.md
R45, assumption log 13). -/
def microDriveData (source : ByteSource) (k : Fin 7) (s : State) : Result :=
  withLine s fun id rev => withByte (s.sourceByte source) fun b => .next (s.driveTo id (dataBitLevel b k.val rev))

/-- Drives the stop-bit level (44_sync_tx.md R137, micro-step 18). -/
def microDriveStop (s : State) : Result := drive stopBitLevel s

/-- `hold_bit()`: two delays of `timestep` (44_sync_tx.md R136). -/
def microHoldBit (s : State) : Result :=
  withCfg s.timestep .timestep fun ts => .next ((s.emit (.delay ts.toNat)).emit (.delay ts.toNat))

/-- `if cfg(echo) = 1 then emit ECHO(b)`, all 8 bits of the byte (44_sync_tx.md R137, micro-step 17). -/
def microEcho (source : ByteSource) (s : State) : Result :=
  withCfg s.echo .echo fun f =>
    if isEchoOn f then withByte (s.sourceByte source) fun b => .next (s.emit (.echo b)) else .next s

/-- The stop hold: two delays of `floor(stop_halves × timestep / 2)` (44_sync_tx.md R137, micro-step 19).
`stop_halves` is read before `timestep` (assumption log 10). -/
def microHoldStop (s : State) : Result :=
  withCfg s.stopHalves .stopHalves fun sh => withCfg s.timestep .timestep fun ts =>
    .next ((s.emit (.delay (stopDelay sh ts))).emit (.delay (stopDelay sh ts)))

/-- Micro-steps 2 to 19 of TXB of the byte (44_sync_tx.md R137). -/
def txbRest (source : ByteSource) : List MicroStep :=
  [.holdBit] ++ (([0, 1, 2, 3, 4, 5, 6] : List (Fin 7)).flatMap fun k => [.driveData source k, .holdBit])
    ++ [.echo source, .driveStop, .holdStop]

/-- The 19 micro-steps of TXB of the byte (44_sync_tx.md R137). -/
def txbSteps (source : ByteSource) : List MicroStep := .driveStart :: txbRest source

/-- The micro-steps of TXMSG after the first, for an augmented message of `n` bytes: those of TXB `MSG[j]` for `j` from 0
to `n - 1` in order (44_sync_tx.md R140). -/
def txMsgRest (n : Nat) : List MicroStep := (List.range n).flatMap fun j => txbSteps (.message j)

/-- TXB b: micro-step 1 now, micro-steps 2 to 19 left to run (44_sync_tx.md R137). -/
def execTxb (b : Byte) (s : State) : Result := microDriveStart (s.leave (txbRest (.operand b)))

/-- TXMSG: `augment()` now, the bytes of the augmented message left to transmit, each read at its own TXB
(44_sync_tx.md R140). -/
def execTxMsg (s : State) : Result :=
  augment s fun t => .next (t.leave (txMsgRest t.msgLen.toNat))

end Sys2Proof.Machine
end

