-- ==== Sys2Proof/Machine/Dispatch.lean ====
section
/-! DEFINITION. One arm per operation of spec/opcode_table.json: the meaning it has. -/

namespace Sys2Proof.Machine

def exec (i : Instr) (s : State) : Host.Outcome State Fault Refusal :=
  match i with
  | .crcInit => Sys2Proof.Machine.execCrcInit s
  | .crcUpd b => Sys2Proof.Machine.execCrcUpd b s
  | .crcRd => Sys2Proof.Machine.execCrcRd s
  | .setLine b => Sys2Proof.Machine.execSetLine b s
  | .setBaud r => Sys2Proof.Machine.execSetBaud r s
  | .getBaud => Sys2Proof.Machine.execGetBaud s
  | .setCksum f => Sys2Proof.Machine.execSetCksum f s
  | .getCksum => Sys2Proof.Machine.execGetCksum s
  | .setStop h => Sys2Proof.Machine.execSetStop h s
  | .setRev f => Sys2Proof.Machine.execSetRev f s
  | .setEcho f => Sys2Proof.Machine.execSetEcho f s
  | .msgClr => Sys2Proof.Machine.execMsgClr s
  | .msgPut b => Sys2Proof.Machine.execMsgPut b s
  | .msgLen => Sys2Proof.Machine.execMsgLen s
  | .msgGet idx => Sys2Proof.Machine.execMsgGet idx s
  | .txb b => Sys2Proof.Machine.execTxb b s
  | .txMsg => Sys2Proof.Machine.execTxMsg s
  | .txAsync => Sys2Proof.Machine.execTxAsync s
  | .bufSz => Sys2Proof.Machine.execBufSz s
  | .tick => Sys2Proof.Machine.execTick s

end Sys2Proof.Machine
end

