-- ==== Sys2Proof/Machine/Turn.lean ====
section
/-! DEFINITION. What each context does when it moves (spec/00_scope.md R7, spec/20_memory.md R50): the HOST runs the next
micro-step of its command or issues its next command word, the TICK context takes one TICK event. -/

namespace Sys2Proof.Machine

/-- One micro-step of a command in progress (44_sync_tx.md R137, 45_async_tx.md R152). -/
def execMicro (m : MicroStep) (s : State) : Result :=
  match m with
  | .driveStart => microDriveStart s
  | .driveData source k => microDriveData source k s
  | .holdBit => microHoldBit s
  | .echo source => microEcho source s
  | .driveStop => microDriveStop s
  | .holdStop => microHoldStop s
  | .setLock => microSetLock s
  | .push j => microPush j s
  | .clearLock => microClearLock s

/-- Issues a command word: its instruction's meaning, or the refusal `IllegalCommand(w)` (30_encoding.md R60, R65). -/
def issue (w : Word) (s : State) : Result :=
  match decode w with
  | .ok i => exec i s
  | .illegal _ => .refused (.illegalCommand w)

/-- The HOST moves: the next micro-step of the command in progress; with none in progress the next command word, which
the block takes "only when the previous command has completed" (30_encoding.md R60); with neither it does nothing. -/
def hostTurn (s : State) : Result :=
  match s.pending with
  | m :: rest => execMicro m (s.leave rest)
  | [] =>
    match s.port with
    | w :: words => issue w { s with port := words }
    | [] => .next s

/-- The TICK context moves: one TICK event, between two micro-steps (20_memory.md R50, 60_exceptions.md R184). -/
def tickTurn (s : State) : Result := exec .tick s

/-- One step of the run: the context that moves next, moves; past the end of the schedule it is the HOST
(assumption log 9). -/
def turn (s : State) : Result :=
  match s.turns with
  | .tick :: _ => tickTurn s.useTurn
  | .host :: _ => hostTurn s.useTurn
  | [] => hostTurn s

end Sys2Proof.Machine
end

