-- ==== Sys2Proof/Machine/Step.lean ====
section
/-! DEFINITION. The step: one micro-step or one TICK event (spec/20_memory.md R50), and the state whose next step issues
a given command word. -/

namespace Sys2Proof.Machine

/-- One step of the machine. -/
def step (s : State) : Host.Outcome State Fault Refusal := turn s

/-- `s` with the command word that the low `nbits` bits of `w` give at the head of the command port, the HOST to move
and no command in progress (assumption log 8). -/
def State.withFetchWord (s : State) (nbits w : Nat) : State := s.present (tableWord nbits w)

end Sys2Proof.Machine
end

