-- ==== Sys2Proof/Safety.lean ====
section
/-! DEFINITION. What claims about RTTY-TX are stated in: the invariants of spec/10_state.md R31, what the HOST must have
configured (spec/70_reset_and_hazards.md R212), when the engine is idle and when a run is over (R214, R226), and the
events and ticks a frame takes. -/

namespace Sys2Proof

/-- The command gives a response word (30_encoding.md R63). -/
def Instr.returnsWord : Instr → Bool
  | .crcRd | .getBaud | .getCksum | .msgLen | .msgGet _ | .bufSz => true
  | .crcInit | .crcUpd _ | .setLine _ | .setBaud _ | .setCksum _ | .setStop _ | .setRev _ | .setEcho _ | .msgClr
  | .msgPut _ | .txb _ | .txMsg | .txAsync | .tick => false

/-- A command of the Line Configuration family (42_config.md R100). -/
def Instr.isConfig : Instr → Bool
  | .setLine _ | .setBaud _ | .getBaud | .setCksum _ | .getCksum | .setStop _ | .setRev _ | .setEcho _ => true
  | .crcInit | .crcUpd _ | .crcRd | .msgClr | .msgPut _ | .msgLen | .msgGet _ | .txb _ | .txMsg | .txAsync | .bufSz
  | .tick => false

end Sys2Proof

namespace Sys2Proof.Machine

/-- `n` steps of the machine, stopping at the first fault or refusal. -/
abbrev run (n : Nat) (s : State) : Result := Host.Core.run Sys2Proof.core n s

/-- The configuration field has been written since reset (10_state.md R23). -/
def State.written (s : State) : ConfigField → Bool
  | .lineId => s.lineId.isSome
  | .timestep => s.timestep.isSome
  | .cksum => s.cksum.isSome
  | .stopHalves => s.stopHalves.isSome
  | .rev => s.rev.isSome
  | .echo => s.echo.isSome

/-- The micro-step belongs to TXB or TXMSG: it uses neither the lock nor the queue (44_sync_tx.md R137). -/
def MicroStep.isSync : MicroStep → Bool
  | .driveStart | .driveData _ _ | .holdBit | .echo _ | .driveStop | .holdStop => true
  | .setLock | .push _ | .clearLock => false

/-- The configuration fields that the micro-step reads, in its order (44_sync_tx.md R136, R137; 41_frame_encoder.md R90).
Those of TXASYNC after the first read none (45_async_tx.md R153). -/
def MicroStep.reads : MicroStep → List ConfigField
  | .driveStart | .driveData _ _ | .driveStop => [.lineId, .rev]
  | .holdBit => [.timestep]
  | .echo _ => [.echo]
  | .holdStop => [.stopHalves, .timestep]
  | .setLock | .push _ | .clearLock => []

/-- Where the byte that the micro-step sends comes from, if it sends one (44_sync_tx.md R137, R140). -/
def MicroStep.byteSource : MicroStep → Option ByteSource
  | .driveData source _ | .echo source => some source
  | .driveStart | .holdBit | .driveStop | .holdStop | .setLock | .push _ | .clearLock => none

/-- The micro-steps of TXASYNC from the push of byte `j` on, for an augmented message of `n` bytes (45_async_tx.md
R152). -/
def pushesFrom (j n : Nat) : List MicroStep := (List.range' j (n - j)).map .push ++ [.clearLock]

/-- Where the HOST stands and what the lock says there (10_state.md R31): the lock is held exactly between the second
and the last micro-step of one TXASYNC, and only there does a push come next; the bytes that a TXMSG has still to send stand below
`msg_len`. -/
def HostPosition (s : State) : Prop :=
  (s.lock = false ∧
    ∀ m ∈ s.pending, m.isSync = true ∧ ∀ j, m.byteSource = some (.message j) → j < s.msgLen.toNat) ∨
  (s.lock = false ∧ s.pending = txAsyncRest s.msgLen.toNat) ∨
  (s.lock = true ∧ ∃ j, j ≤ s.msgLen.toNat ∧ s.pending = pushesFrom j s.msgLen.toNat)

/-- The invariants of 10_state.md R31, with the canonical form of the Message Buffer, its bounds (20_memory.md R41) and
the range of the parameter `MSGCAP` (00_scope.md R6). (`bit_idx` ≤ 7 and the three phases stand in the types.) -/
structure Inv (s : State) : Prop where
  memWf : s.msg.wf
  memBelowCap : ∀ c ∈ s.msg, c.1 < s.msgCap.toNat
  msgBacked : ∀ a, a < s.msgLen.toNat → (memLookup s.msg a).isSome = true
  msgFits : s.msgLen.toNat ≤ s.msgCap.toNat
  capPositive : 0 < s.msgCap.toNat
  queueFits : s.qsize ≤ Config.qCap
  byteInFlight : s.phase ≠ .start → s.curByte.isSome = true
  timestepRange : ∀ ts, s.timestep = some ts → 1 ≤ ts.toNat ∧ ts.toNat ≤ 500000
  stopRange : ∀ sh, s.stopHalves = some sh → sh = 2#3 ∨ sh = 3#3 ∨ sh = 4#3
  hostPosition : HostPosition s

/-- What TXB needs the HOST to have given: SETLINE, SETREV, SETBAUD, SETECHO, SETSTOP (70_reset_and_hazards.md R212),
with the values given. -/
structure SyncConfig (s : State) (id : Byte) (rev : Flag) (ts : BitVec 32) (ec : Flag) (sh : BitVec 3) : Prop where
  lineId : s.lineId = some id
  rev : s.rev = some rev
  timestep : s.timestep = some ts
  echo : s.echo = some ec
  stopHalves : s.stopHalves = some sh

/-- What the ticks need the HOST to have given: SETLINE, SETREV, SETSTOP (70_reset_and_hazards.md R212). -/
structure TickConfig (s : State) (id : Byte) (rev : Flag) (sh : BitVec 3) : Prop where
  lineId : s.lineId = some id
  rev : s.rev = some rev
  stopHalves : s.stopHalves = some sh

/-- The engine is idle: nothing queued, nothing in flight (70_reset_and_hazards.md R226). -/
def EngineIdle (s : State) : Prop := s.queue = [] ∧ s.phase = .start

/-- The run is over (70_reset_and_hazards.md R214). -/
def RunOver (s : State) : Prop := s.port = [] ∧ s.pending = [] ∧ EngineIdle s

/-- The ticks that finish the byte in flight (45_async_tx.md R165: ten from its pop). -/
def ticksOfByteInFlight (s : State) : Nat :=
  match s.phase with
  | .start => 0
  | .sending => 9 - s.bitIdx.toNat
  | .stop => 1

/-- The events of one byte in the synchronous path: each level but the stop level with its two half-bit delays, the
echo if it is on, and the stop level with its two delays (44_sync_tx.md R136, R137). -/
def syncFrame (id : Byte) (rev : Flag) (ts : BitVec 32) (ec : Flag) (sh : BitVec 3) (b : Byte) : List Event :=
  ((frameLevels b rev).take 8).flatMap (fun l => [.lineSet id l, .delay ts.toNat, .delay ts.toNat]) ++
  (if ec = 1#1 then [.echo b] else []) ++
  [.lineSet id (stopBitLevel rev), .delay (sh.toNat * ts.toNat / 2), .delay (sh.toNat * ts.toNat / 2)]

/-- The events of one byte in the asynchronous path: its nine levels, and the stop level once more for a stop-bit count
of 2 (45_async_tx.md R164, R165). -/
def asyncFrame (id : Byte) (rev : Flag) (sh : BitVec 3) (b : Byte) : List Event :=
  (frameLevels b rev).map (fun l => .lineSet id l) ++ (if sh = 4#3 then [.lineSet id (stopBitLevel rev)] else [])

/-- The event with its level complemented, as inverted keying drives it (41_frame_encoder.md R95). -/
def Event.inverted : Event → Event
  | .lineSet id l => .lineSet id (~~~l)
  | .lineMode id => .lineMode id
  | .delay n => .delay n
  | .echo b => .echo b

/-- The argument of a DELAY event, 0 of the others. -/
def Event.delayArg : Event → Nat
  | .delay n => n
  | .lineMode _ | .lineSet _ _ | .echo _ => 0

end Sys2Proof.Machine
end

