-- ==== Sys2Proof/Certificates/Slice0/Obligations.lean ====
section
/-! DEFINITION. The statements about RTTY-TX, from the numbered rules of spec/. An equation `exec i s = .next { s with ... }`
says the result, the completion and the frame at once: every field that the update does not name, all of memory
included, is as before. -/

open Sys2Proof Sys2Proof.Machine

/-! ### Reset, the step and the schedule -/

/-- 10_state.md R30: every row of the table of reset values; after reset the block waits, and a tick does nothing. -/
def Obligations.ResetLeavesTheSpecsValues : Prop :=
  State.reset.crc = 0xFFFF#16 ∧ State.reset.curByte = none ∧ State.reset.lineLevel = none ∧
  State.reset.phase = .start ∧ State.reset.bitIdx = 0#3 ∧ State.reset.lock = false ∧
  State.reset.queue = [] ∧ State.reset.qsize = 0 ∧ State.reset.msgLen = 0#16 ∧
  (∀ a, State.reset.memRead a = none) ∧
  State.reset.lineId = none ∧ State.reset.timestep = none ∧ State.reset.cksum = none ∧
  State.reset.stopHalves = none ∧ State.reset.rev = none ∧ State.reset.echo = none ∧ State.reset.ev = [] ∧
  step State.reset = .next State.reset ∧ exec .tick State.reset = .next State.reset

/-- 10_state.md R30, last sentence: whatever commands but TXASYNC the host issues after reset, with whatever schedule and
whatever capacity of the Message Buffer, a TICK is a no-op. -/
def Obligations.TickBeforeAnyTxAsyncIsANoOp : Prop :=
  ∀ (n : Nat) (cap : BitVec 16) (words : List Word) (sched : List Context) (s : State),
    (∀ w ∈ words, w ≠ 0x50000000#32) →
    run n { State.reset with msgCap := cap, port := words, turns := sched } = .next s →
    exec .tick s = .next s

/-- 30_encoding.md R60, 00_scope.md R7: with no command in progress and the HOST to move, a step takes the next word of
the command port, and if the word decodes to `i`, the step is the meaning of `i`. (`turns = []` is the model's own: past
the end of the schedule the HOST moves, assumption log 9.) -/
def Obligations.StepRunsTheDecodedCommand : Prop :=
  ∀ (s : State) (w : Word) (ws : List Word) (i : Instr),
    s.pending = [] → s.port = w :: ws → decode w = .ok i →
    (∀ ts, s.turns = .host :: ts → step s = exec i { s with port := ws, turns := ts }) ∧
    (s.turns = [] → step s = exec i { s with port := ws })

/-- 20_memory.md R50, 60_exceptions.md R184, R185: a TICK falls between two micro-steps of whatever command is in
progress, and the command then goes on at its next micro-step. (The clauses with `turns = []` are the model's choice, not
those rules': past the end of the schedule the HOST moves, assumption log 9, DESIGN CHOICE. So is the last clause, a HOST
with nothing to do does nothing: log 9, read from 60_exceptions.md R196, "between events it simply holds its state".) -/
def Obligations.StepFollowsTheSchedule : Prop :=
  (∀ (s : State) (ts : List Context), s.turns = .tick :: ts → step s = exec .tick { s with turns := ts }) ∧
  (∀ (s : State) (m : MicroStep) (ms : List MicroStep), s.pending = m :: ms →
    (∀ ts, s.turns = .host :: ts → step s = execMicro m { s with pending := ms, turns := ts }) ∧
    (s.turns = [] → step s = execMicro m { s with pending := ms })) ∧
  (∀ s : State, s.pending = [] → s.port = [] →
    (∀ ts, s.turns = .host :: ts → step s = .next { s with turns := ts }) ∧ (s.turns = [] → step s = .next s))

/-! ### Command words -/

/-- 30_encoding.md R65: a word is illegal exactly when no row of the opcode map covers it; an illegal word is refused, by
the port and so by the step that takes it; an operand out of its legal range does not make a word illegal. -/
def Obligations.IllegalWordsAreRefused : Prop :=
  (∀ w : Word, (∃ why, decode w = .illegal why) ↔
    ((∀ r ∈ opcodeMap, r.op ≠ w.extractLsb' 24 8) ∨
      ∃ r ∈ opcodeMap, r.op = w.extractLsb' 24 8 ∧ w &&& r.format.mustBeZero ≠ 0#32)) ∧
  (∀ (w : Word) (s : State), (∃ why, decode w = .illegal why) → issue w s = .refused (.illegalCommand w)) ∧
  (∀ (w : Word) (ws : List Word) (ts : List Context) (s : State), (∃ why, decode w = .illegal why) →
    s.pending = [] → s.port = w :: ws → s.turns = .host :: ts → step s = .refused (.illegalCommand w)) ∧
  (∀ r : BitVec 24, decode (0x21000000#32 ||| r.setWidth 32) = .ok (.setBaud r)) ∧
  (∀ h : BitVec 3, decode (0x25000000#32 ||| h.setWidth 32) = .ok (.setStop h)) ∧
  (∀ i : BitVec 16, decode (0x33000000#32 ||| i.setWidth 32) = .ok (.msgGet i))

/-- 30_encoding.md R64, "for a decoder": a word decodes exactly when `w & mask = match` for a row of the opcode map, and
the rows are disjoint. -/
def Obligations.OpcodeRowsCoverTheLegalWordsOnce : Prop :=
  (∀ w : Word, (∃ i, decode w = .ok i) ↔ ∃ r ∈ opcodeMap, w &&& r.mask = r.value) ∧
  (∀ r ∈ opcodeMap, ∀ r' ∈ opcodeMap, ∀ w : Word, w &&& r.mask = r.value → w &&& r'.mask = r'.value → r = r')

/-- 30_encoding.md R60 to R62, R64, R67: decoding the word of a well-formed instruction gives it back, with every operand
at every value; TICK has no word. -/
def Obligations.DecodeOfEncode : Prop :=
  (∀ i : Instr, WellFormed i → ∃ w, encode i = some w ∧ decode w = .ok i) ∧ encode .tick = none

/-- 30_encoding.md R64, R67: a word decodes to one instruction, whose word it is; never to TICK. -/
def Obligations.EncodeOfDecode : Prop :=
  ∀ (w : Word) (i : Instr), decode w = .ok i → encode i = some w ∧ WellFormed i

/-- Words written out from 30_encoding.md R61 and R64, a few of each family. -/
def Obligations.WordsOfTheOpcodeMap : Prop :=
  decode 0b00010001000000000000000001000001#32 = .ok (.crcUpd 0x41#8) ∧
  decode 0b00100001000001111010000100100000#32 = .ok (.setBaud 500000#24) ∧
  decode 0b00100101000000000000000000000011#32 = .ok (.setStop 3#3) ∧
  decode 0b00110011000000000000000000000001#32 = .ok (.msgGet 1#16) ∧
  decode 0b01000000000000000000000011000001#32 = .ok (.txb 0xC1#8) ∧
  decode 0b01010000000000000000000000000000#32 = .ok .txAsync

/-! ### The Checksum Engine -/

/-- 40_crc.md R83: CRC.INIT, its word, and the illegal words beside it. -/
def Obligations.CrcInitLoadsTheInitialValue : Prop :=
  decode 0x10000000#32 = .ok .crcInit ∧
  (∀ (arg : BitVec 24) (s : State), arg ≠ 0#24 →
    issue (0x10000000#32 ||| arg.setWidth 32) s = .refused (.illegalCommand (0x10000000#32 ||| arg.setWidth 32))) ∧
  (∀ s : State, exec .crcInit s = .next { s with crc := 0xFFFF#16 })

/-- 40_crc.md R84 (its pseudocode, with the bit-serial update of R81 written as eight shifts) and its example. -/
def Obligations.CrcUpdTakesOneByte : Prop :=
  (∀ b : Byte, decode (0x11000000#32 ||| b.setWidth 32) = .ok (.crcUpd b)) ∧
  (∀ (b : Byte) (s : State), ∃ x : Fin 9 → BitVec 16,
    x 0 = s.crc ^^^ (b ++ 0x00#8) ∧
    (∀ k : Fin 8, x k.succ =
      if (x k.castSucc).getLsbD 15 = true then (x k.castSucc <<< 1) ^^^ 0x1021#16 else x k.castSucc <<< 1) ∧
    exec (.crcUpd b) s = .next { s with crc := x 8 }) ∧
  (∀ s : State, s.crc = 0xFFFF#16 → exec (.crcUpd 0x41#8) s = .next { s with crc := 0xB915#16 })

/-- 40_crc.md R84, corner cases: a zero byte "changes `crc` unless `crc` is 0x0000". The normative update of R81 has
another fixed point, 0xF01F, so this remark of the spec fails of it (assumption log 11). -/
def Obligations.ZeroByteChangesEveryNonzeroCrc : Prop :=
  ∀ s t : State, s.crc ≠ 0x0000#16 → exec (.crcUpd 0x00#8) s = .next t → t.crc ≠ s.crc

/-- 40_crc.md R85: CRC.RD. -/
def Obligations.CrcRdReturnsTheCrc : Prop :=
  decode 0x12000000#32 = .ok .crcRd ∧
  ∀ s : State, exec .crcRd s = .next { s with responses := s.responses ++ [s.crc.setWidth 32] }

/-- 40_crc.md R82: the table-free fold computes the update of R81, for every `c` and `b`. -/
def Obligations.CrcFoldIsTheBitSerialUpdate : Prop :=
  ∀ (c : BitVec 16) (b : Byte), crc16UpdateFold c b = crc16Update c b

/-- 40_crc.md R87 (a) to (d): the CRC continues from a prefix, the fixed point, the zero residue, and that the order
of the bytes matters. -/
def Obligations.CrcPrefixAndResidueLaws : Prop :=
  (∀ (bs : List Byte) (b : Byte), crc16 (bs ++ [b]) = crc16Update (crc16 bs) b) ∧
  crc16Update 0x0000#16 0x00#8 = 0x0000#16 ∧
  (∀ bs : List Byte, crc16 (bs ++ [(crc16 bs).extractLsb' 8 8, (crc16 bs).extractLsb' 0 8]) = 0x0000#16) ∧
  (∃ bs cs : List Byte, bs.Perm cs ∧ crc16 bs ≠ crc16 cs)

/-- 40_crc.md R88, 10_state.md R11: nothing but CRC.INIT, CRC.UPD and CRC.RD reads or writes `crc`: no TICK, no other
command, and no micro-step of one. -/
def Obligations.OnlyTheChecksumCommandsTouchTheCrc : Prop :=
  (∀ (i : Instr) (s t : State) (c : BitVec 16), i ≠ .crcInit → (∀ b, i ≠ .crcUpd b) → i ≠ .crcRd →
    exec i s = .next t → t.crc = s.crc ∧ exec i { s with crc := c } = .next { t with crc := c }) ∧
  (∀ (m : MicroStep) (s t : State) (c : BitVec 16),
    execMicro m s = .next t → t.crc = s.crc ∧ execMicro m { s with crc := c } = .next { t with crc := c })

/-- 30_encoding.md R69: the commands of `computeCRC16(b0 ... bn-1)`, no tick between them, answer `crc16` of the bytes
(40_crc.md R86), whatever `crc` held before. -/
def Obligations.ComputeCrc16AnswersTheCrcOfTheBytes : Prop :=
  ∀ (bs : List Byte) (s : State) (ws : List Word) (ts : List Context), s.pending = [] →
    s.turns = List.replicate (bs.length + 2) .host ++ ts →
    s.port = [0x10000000#32] ++ bs.map (fun b => 0x11000000#32 ||| b.setWidth 32) ++ [0x12000000#32] ++ ws →
    run (bs.length + 2) s =
      .next { s with
        port := ws, turns := ts, crc := crc16 bs, responses := s.responses ++ [(crc16 bs).setWidth 32] }

/-! ### The Frame Encoder -/

/-- 41_frame_encoder.md R91 to R94: the nine levels of a frame in normal keying; bit 7 never reaches the line. -/
def Obligations.FrameIsStartSevenBitsStop : Prop :=
  ∀ b : Byte,
    frameLevels b 0#1 =
      [0#1, b.extractLsb' 0 1, b.extractLsb' 1 1, b.extractLsb' 2 1, b.extractLsb' 3 1, b.extractLsb' 4 1,
       b.extractLsb' 5 1, b.extractLsb' 6 1, 1#1] ∧
    ∀ rev : Flag, frameLevels (b ^^^ 0x80#8) rev = frameLevels b rev

/-- 41_frame_encoder.md R95: with `rev` = 1 every level is the complement of the level with `rev` = 0. (R93 gives a data
level for the indices 0 to 7; that there is one for an index of 8 or more is the model's choice, assumption log 20, DESIGN
CHOICE.) -/
def Obligations.ReversePolarityComplementsEveryLevel : Prop :=
  startBitLevel 1#1 = ~~~(startBitLevel 0#1) ∧ stopBitLevel 1#1 = ~~~(stopBitLevel 0#1) ∧
  (∀ (b : Byte) (i : Nat), dataBitLevel b i 1#1 = ~~~(dataBitLevel b i 0#1)) ∧
  (∀ b : Byte, frameLevels b 1#1 = (frameLevels b 0#1).map fun l => ~~~l)

/-- 45_async_tx.md R169: with `rev` constant, the levels that ticks drive with `rev` = 1 are the complement of those with
`rev` = 0, event for event, for every number of ticks from every state. -/
def Obligations.TickTracesOfOppositePolarityAreComplements : Prop :=
  ∀ (n : Nat) (s t : State) (ts : List Context), s.turns = List.replicate n .tick ++ ts →
    run n { s with rev := some 0#1 } = .next t →
    ∃ (u : State) (es : List Event), run n { s with rev := some 1#1 } = .next u ∧
      t.ev = s.ev ++ es ∧ u.ev = s.ev ++ es.map Event.inverted ∧ t.queue = u.queue ∧ t.phase = u.phase

/-! ### The Line Configuration -/

/-- 42_config.md R102: SETLINE. -/
def Obligations.SetLineStoresAndConfiguresTheLine : Prop :=
  ∀ (b : Byte) (s : State), decode (0x20000000#32 ||| b.setWidth 32) = .ok (.setLine b) ∧
    exec (.setLine b) s = .next { s with lineId := some b, ev := s.ev ++ [.lineMode b] }

/-- 42_config.md R104: SETBAUD stores `floor(500000 / r)`, or raises `BaudRange(r)`. -/
def Obligations.SetBaudStoresTheHalfBit : Prop :=
  ∀ (r : BitVec 24) (s : State), decode (0x21000000#32 ||| r.setWidth 32) = .ok (.setBaud r) ∧
    (1 ≤ r.toNat → r.toNat ≤ 500000 →
      exec (.setBaud r) s = .next { s with timestep := some (BitVec.ofNat 32 (500000 / r.toNat)) }) ∧
    (r.toNat = 0 ∨ 500000 < r.toNat → exec (.setBaud r) s = .fault (.baudRange r))

/-- 42_config.md R105: GETBAUD answers `floor(500000 / timestep)`, or raises `CfgUnwritten(timestep)`. (A `timestep` of
0, which no run reaches, has no quotient: the response is then a free value, assumption log 5.) -/
def Obligations.GetBaudReturnsTheInverse : Prop :=
  decode 0x22000000#32 = .ok .getBaud ∧
  ∀ s : State,
    (∀ ts, s.timestep = some ts → 1 ≤ ts.toNat →
      exec .getBaud s = .next { s with responses := s.responses ++ [BitVec.ofNat 32 (500000 / ts.toNat)] }) ∧
    (∀ ts, s.timestep = some ts → ts.toNat = 0 →
      ∃ w, exec .getBaud s = .next { s with responses := s.responses ++ [w] }) ∧
    (s.timestep = none → exec .getBaud s = .fault (.cfgUnwritten .timestep))

/-- 42_config.md R106: GETBAUD after SETBAUD `r` answers `floor(500000 / floor(500000 / r))`, at least `r`: exactly `r`
for the listed rates, 500000 from 250001 on, 250000 for 250000. -/
def Obligations.BaudRoundTripIsLossyUpwards : Prop :=
  ∀ (r : BitVec 24) (s : State), 1 ≤ r.toNat → r.toNat ≤ 500000 →
    ∃ (t : State) (w : Word), exec (.setBaud r) s = .next t ∧
      exec .getBaud t = .next { t with responses := t.responses ++ [w] } ∧
      w.toNat = 500000 / (500000 / r.toNat) ∧ r.toNat ≤ w.toNat ∧
      (r.toNat ∈ [45, 50, 75, 100, 110, 150, 300, 250000] → w.toNat = r.toNat) ∧
      (250001 ≤ r.toNat → w.toNat = 500000)

/-- 42_config.md R107, R112, R113: SETCKSUM, SETREV and SETECHO store their flag and do nothing else. -/
def Obligations.FlagSettersStoreTheirFlag : Prop :=
  ∀ (f : Flag) (s : State),
    (decode (0x23000000#32 ||| f.setWidth 32) = .ok (.setCksum f) ∧
      exec (.setCksum f) s = .next { s with cksum := some f }) ∧
    (decode (0x26000000#32 ||| f.setWidth 32) = .ok (.setRev f) ∧
      exec (.setRev f) s = .next { s with rev := some f }) ∧
    (decode (0x27000000#32 ||| f.setWidth 32) = .ok (.setEcho f) ∧
      exec (.setEcho f) s = .next { s with echo := some f })

/-- 42_config.md R108: GETCKSUM. -/
def Obligations.GetCksumReturnsTheMode : Prop :=
  decode 0x24000000#32 = .ok .getCksum ∧
  ∀ s : State,
    (∀ f, s.cksum = some f → exec .getCksum s = .next { s with responses := s.responses ++ [f.setWidth 32] }) ∧
    (s.cksum = none → exec .getCksum s = .fault (.cfgUnwritten .cksum))

/-- 42_config.md R110: SETSTOP stores 2, 3 or 4 and raises `StopRange(h)` for every other operand. -/
def Obligations.SetStopAcceptsTwoThreeFour : Prop :=
  ∀ (h : BitVec 3) (s : State), decode (0x25000000#32 ||| h.setWidth 32) = .ok (.setStop h) ∧
    (h.toNat = 2 ∨ h.toNat = 3 ∨ h.toNat = 4 → exec (.setStop h) s = .next { s with stopHalves := some h }) ∧
    (¬(h.toNat = 2 ∨ h.toNat = 3 ∨ h.toNat = 4) → exec (.setStop h) s = .refused (.stopRange h))

/-- 42_config.md R100, the frame of the whole family: a Line Configuration command touches neither `crc`, `MSG`, `Q`, the
lock nor the engine, and none but SETLINE emits. -/
def Obligations.ConfigCommandsLeaveTheRestAlone : Prop :=
  ∀ (i : Instr) (s t : State), i.isConfig = true → exec i s = .next t →
    t.crc = s.crc ∧ t.msgLen = s.msgLen ∧ (∀ a, t.memRead a = s.memRead a) ∧ t.queue = s.queue ∧ t.lock = s.lock ∧
    t.phase = s.phase ∧ t.bitIdx = s.bitIdx ∧ t.curByte = s.curByte ∧ t.lineLevel = s.lineLevel ∧
    t.pending = s.pending ∧ ((∀ b, i ≠ .setLine b) → t.ev = s.ev)

/-! ### The Message Buffer -/

/-- 43_message.md R121: MSG.CLR writes no byte of `MSG`, but no byte is readable afterwards. -/
def Obligations.MsgClrEmptiesTheMessage : Prop :=
  decode 0x30000000#32 = .ok .msgClr ∧
  ∀ s : State, ∃ t, exec .msgClr s = .next t ∧ t = { s with msgLen := 0#16 } ∧ (∀ a, t.memRead a = none) ∧
    t.message = some []

/-- 43_message.md R122: MSG.PUT appends its byte, every other byte as before, or raises `MsgOverflow` when the buffer is
full. (R122 tests `msg_len` = `MSGCAP`. That it also stops at `msg_len` > `MSGCAP`, in no reachable state, is the model's
reading of 20_memory.md R41, "a write at `a` ≥ `MSGCAP` is never performed": assumption log 19, DEDUCED.) -/
def Obligations.MsgPutAppendsOneByte : Prop :=
  ∀ (b : Byte) (s : State), decode (0x31000000#32 ||| b.setWidth 32) = .ok (.msgPut b) ∧
    (s.msgLen.toNat < s.msgCap.toNat →
      ∃ t, exec (.msgPut b) s = .next t ∧ t = { s with msg := t.msg, msgLen := t.msgLen } ∧
        t.msgLen.toNat = s.msgLen.toNat + 1 ∧ t.memRead s.msgLen.toNat = some b ∧
        (∀ a, a ≠ s.msgLen.toNat → t.memRead a = s.memRead a)) ∧
    (s.msgCap.toNat ≤ s.msgLen.toNat → exec (.msgPut b) s = .refused (.msgOverflow s.msgLen))

/-- 43_message.md R123: MSG.LEN. -/
def Obligations.MsgLenReturnsTheLength : Prop :=
  decode 0x32000000#32 = .ok .msgLen ∧
  ∀ s : State, exec .msgLen s = .next { s with responses := s.responses ++ [s.msgLen.setWidth 32] }

/-- 43_message.md R124: MSG.GET answers the byte at its index, or raises `MsgIndex(i)` at or past the length. (A byte
below the length that holds no value, in no reachable state: the fault of assumption log 6.) -/
def Obligations.MsgGetReturnsTheByte : Prop :=
  ∀ (i : BitVec 16) (s : State), decode (0x33000000#32 ||| i.setWidth 32) = .ok (.msgGet i) ∧
    (∀ b, s.memRead i.toNat = some b →
      exec (.msgGet i) s = .next { s with responses := s.responses ++ [b.setWidth 32] }) ∧
    (s.msgLen.toNat ≤ i.toNat → exec (.msgGet i) s = .refused (.msgIndex i)) ∧
    (i.toNat < s.msgLen.toNat → memLookup s.msg i.toNat = none → exec (.msgGet i) s = .fault .msgByteUnwritten)

/-- 43_message.md R125, R127: the suffix is the asterisk and four uppercase hexadecimal digits, the most significant
first. -/
def Obligations.SuffixIsFourUppercaseHexDigits : Prop :=
  ∀ c : BitVec 16, ∃ d : Fin 4 → Fin 16,
    c.toNat = (d 0).val * 4096 + (d 1).val * 256 + (d 2).val * 16 + (d 3).val ∧
    suffix c = 0x2A#8 :: (List.ofFn d).map (fun n =>
      if n.val ≤ 9 then BitVec.ofNat 8 (0x30 + n.val) else BitVec.ofNat 8 (0x41 + (n.val - 10)))

/-- 43_message.md R126, R128, 44_sync_tx.md R140: the first micro-step of TXMSG appends the suffix (in mode `CRC16`) and
the newline, leaves every byte already there as it was and `crc` alone, and leaves the 19 micro-steps of TXB `MSG[j]` to
run for each index `j` of the augmented message, in order. -/
def Obligations.TxMsgAugmentsAndStarts : Prop :=
  ∀ (s : State) (mode : Flag) (bs : List Byte), s.cksum = some mode → s.message = some bs →
    s.msgLen.toNat + (if mode = 1#1 then 6 else 1) ≤ s.msgCap.toNat →
    ∃ t, exec .txMsg s = .next t ∧
      t = { s with msg := t.msg, msgLen := t.msgLen, pending := t.pending } ∧
      t.message = some (bs ++ (if mode = 1#1 then suffix (crc16 bs) else []) ++ [0x0A#8]) ∧
      t.msgLen.toNat = s.msgLen.toNat + (if mode = 1#1 then 6 else 1) ∧
      (∀ a, a < s.msgLen.toNat → t.memRead a = s.memRead a) ∧
      t.pending = (List.range t.msgLen.toNat).flatMap (fun j => txbSteps (.message j)) ∧
      t.pending.length = 19 * t.msgLen.toNat

/-- 43_message.md R126, R128, 45_async_tx.md R152: the first micro-step of TXASYNC augments in the same way, and leaves
the lock, one push for each byte of the augmented message, and the unlock to run. -/
def Obligations.TxAsyncAugmentsAndStarts : Prop :=
  ∀ (s : State) (mode : Flag) (bs : List Byte), s.cksum = some mode → s.message = some bs →
    s.msgLen.toNat + (if mode = 1#1 then 6 else 1) ≤ s.msgCap.toNat →
    ∃ t, exec .txAsync s = .next t ∧
      t = { s with msg := t.msg, msgLen := t.msgLen, pending := t.pending } ∧
      t.message = some (bs ++ (if mode = 1#1 then suffix (crc16 bs) else []) ++ [0x0A#8]) ∧
      t.msgLen.toNat = s.msgLen.toNat + (if mode = 1#1 then 6 else 1) ∧
      (∀ a, a < s.msgLen.toNat → t.memRead a = s.memRead a) ∧
      t.pending = [.setLock] ++ (List.range t.msgLen.toNat).map .push ++ [.clearLock]

/-- 43_message.md R128: TXMSG and TXASYNC raise `CfgUnwritten(cksum)` while the mode is unwritten, and `MsgOverflow` when
the suffix and newline do not fit. -/
def Obligations.AugmentationStopsWithoutModeOrRoom : Prop :=
  ∀ (i : Instr) (s : State), i = .txMsg ∨ i = .txAsync →
    (s.cksum = none → exec i s = .fault (.cfgUnwritten .cksum)) ∧
    (∀ mode, s.cksum = some mode → s.msgCap.toNat < s.msgLen.toNat + (if mode = 1#1 then 6 else 1) →
      exec i s = .fault (.msgOverflow s.msgLen))

/-- 20_memory.md R41: "the buffer grows at its end and is never written in the middle": no step changes a byte below the
length. -/
def Obligations.NoStepWritesBelowTheLength : Prop :=
  ∀ s t : State, step s = .next t → ∀ a, a < s.msgLen.toNat → memLookup t.msg a = memLookup s.msg a

/-! ### The Synchronous Transmitter -/

/-- 44_sync_tx.md R137, micro-step 1 of TXB: the start level is driven, and the 18 other micro-steps are left to run; with
`line_id` or `rev` unwritten it raises `CfgUnwritten` of an unwritten one. -/
def Obligations.TxbDrivesTheStartBitFirst : Prop :=
  ∀ (b : Byte) (s : State), decode (0x40000000#32 ||| b.setWidth 32) = .ok (.txb b) ∧
    (∀ id rev, s.lineId = some id → s.rev = some rev →
      exec (.txb b) s = .next { s with
        ev := s.ev ++ [.lineSet id (0#1 ^^^ rev)], lineLevel := some (0#1 ^^^ rev), pending := txbRest (.operand b) }) ∧
    (s.lineId = none ∨ s.rev = none →
      ∃ f, exec (.txb b) s = .fault (.cfgUnwritten f) ∧ (f = .lineId ∨ f = .rev) ∧ s.written f = false)

/-- 44_sync_tx.md R136, R137: the 19 steps of TXB, no tick between them, put exactly the frame of the byte on the line:
start level, data bits 0 to 6, echo, stop level, each with its two delays; nothing else but the line level changes. -/
def Obligations.TxbTransmitsOneFrame : Prop :=
  ∀ (b : Byte) (s : State) (ws : List Word) (ts : List Context) (id : Byte) (rev : Flag) (tst : BitVec 32) (ec : Flag)
    (sh : BitVec 3), SyncConfig s id rev tst ec sh → s.pending = [] →
    s.port = (0x40000000#32 ||| b.setWidth 32) :: ws → s.turns = List.replicate 19 .host ++ ts →
    run 19 s = .next { s with
      port := ws, turns := ts, ev := s.ev ++ syncFrame id rev tst ec sh b, lineLevel := some (1#1 ^^^ rev) }

/-- 44_sync_tx.md R140: TXMSG, no tick between its `1 + 19 × msg_len` steps, transmits every byte of the augmented message
in order, and the buffer stays augmented (43_message.md R130). -/
def Obligations.TxMsgTransmitsTheAugmentedMessage : Prop :=
  ∀ (bs new : List Byte) (mode : Flag) (s : State) (ws : List Word) (ts : List Context) (id : Byte) (rev : Flag)
    (tst : BitVec 32) (ec : Flag) (sh : BitVec 3), SyncConfig s id rev tst ec sh → s.cksum = some mode →
    s.message = some bs → new = bs ++ (if mode = 1#1 then suffix (crc16 bs) else []) ++ [0x0A#8] →
    new.length ≤ s.msgCap.toNat → s.pending = [] → s.port = 0x41000000#32 :: ws →
    s.turns = List.replicate (1 + 19 * new.length) .host ++ ts →
    ∃ t, run (1 + 19 * new.length) s = .next t ∧ t.message = some new ∧
      t = { s with
        msg := t.msg, msgLen := t.msgLen, port := ws, turns := ts,
        ev := s.ev ++ new.flatMap (syncFrame id rev tst ec sh), lineLevel := some (1#1 ^^^ rev) }

/-- 44_sync_tx.md R139: the delays that the 19 steps of one TXB, no tick between them, append to `EV` sum to
`16 × timestep + 2 × d`, which is `(16 + stop_halves) × timestep` when `stop_halves × timestep` is even and 1 less
otherwise. -/
def Obligations.FrameDelaysSumToItsBitPeriods : Prop :=
  ∀ (b : Byte) (s : State) (ws : List Word) (ts : List Context) (id : Byte) (rev : Flag) (tst : BitVec 32) (ec : Flag)
    (sh : BitVec 3), SyncConfig s id rev tst ec sh → s.pending = [] →
    s.port = (0x40000000#32 ||| b.setWidth 32) :: ws → s.turns = List.replicate 19 .host ++ ts →
    ∃ (t : State) (es : List Event), run 19 s = .next t ∧ t.ev = s.ev ++ es ∧
      (es.map Event.delayArg).sum = 16 * tst.toNat + 2 * (sh.toNat * tst.toNat / 2) ∧
      (sh.toNat * tst.toNat % 2 = 0 → (es.map Event.delayArg).sum = (16 + sh.toNat) * tst.toNat) ∧
      (sh.toNat * tst.toNat % 2 = 1 → (es.map Event.delayArg).sum + 1 = (16 + sh.toNat) * tst.toNat)

/-- 10_state.md R23, 60_exceptions.md R186: a step raises `CfgUnwritten` only of a field that is unwritten, so it never
does once the HOST has given all six (70_reset_and_hazards.md R212). And a micro-step of TXB or TXMSG does raise it of an
unwritten field that it reads, when it reads one (44_sync_tx.md R136, R137, its exceptions); with its fields written, and
the byte it sends holding a value, it completes. -/
def Obligations.CfgUnwrittenNamesAnUnwrittenField : Prop :=
  (∀ (s : State) (f : ConfigField), step s = .fault (.cfgUnwritten f) → s.written f = false) ∧
  (∀ (m : MicroStep) (s : State), (∃ f ∈ m.reads, s.written f = false) →
    ∃ f ∈ m.reads, s.written f = false ∧ execMicro m s = .fault (.cfgUnwritten f)) ∧
  (∀ (m : MicroStep) (s : State), m.isSync = true → (∀ f ∈ m.reads, s.written f = true) →
    (∀ source, m.byteSource = some source → ∃ b, s.sourceByte source = some b) → ∃ t, execMicro m s = .next t)

/-! ### The Asynchronous Engine -/

/-- 45_async_tx.md R152, R154, R156: TXASYNC, no tick between its `n + 3` steps, puts the first `255 - q0` bytes of the
augmented message at the tail of the queue, loses the rest, and leaves the lock free. -/
def Obligations.TxAsyncQueuesWhatFits : Prop :=
  ∀ (bs new : List Byte) (mode : Flag) (s : State) (ws : List Word) (ts : List Context), s.cksum = some mode →
    s.message = some bs → new = bs ++ (if mode = 1#1 then suffix (crc16 bs) else []) ++ [0x0A#8] →
    new.length ≤ s.msgCap.toNat → s.pending = [] → s.port = 0x50000000#32 :: ws →
    s.turns = List.replicate (new.length + 3) .host ++ ts →
    ∃ t, run (new.length + 3) s = .next t ∧ t.message = some new ∧
      t = { s with
        msg := t.msg, msgLen := t.msgLen, port := ws, turns := ts, lock := false,
        queue := s.queue ++ new.take (255 - s.queue.length) }

/-- 45_async_tx.md R154, R168, 20_memory.md R52: however many ticks fall among the pushes of a TXASYNC, none pops: the
queue receives exactly the first `min(n, 255 - q0)` bytes, in order. -/
def Obligations.NoTickPopsDuringTxAsync : Prop :=
  ∀ (bs : List Byte) (s t : State) (sched ts : List Context), s.lock = true → s.message = some bs →
    s.pending = (List.range bs.length).map .push ++ [.clearLock] → s.turns = sched ++ ts →
    sched.count .host = bs.length + 1 → sched.getLast? = some .host → run sched.length s = .next t →
    t.queue = s.queue ++ bs.take (255 - s.queue.length) ∧ t.lock = false ∧ t.pending = [] ∧ t.turns = ts

/-- 45_async_tx.md R156: a push appends at the tail; into a full queue it is lost, and no state differs. -/
def Obligations.PushIntoAFullQueueIsLost : Prop :=
  ∀ (j : Nat) (b : Byte) (s : State), s.memRead j = some b →
    (s.queue.length < 255 → execMicro (.push j) s = .next { s with queue := s.queue ++ [b] }) ∧
    (255 ≤ s.queue.length → execMicro (.push j) s = .next s)

/-- 45_async_tx.md R155: BUFSZ answers the occupancy. -/
def Obligations.BufSzReturnsTheOccupancy : Prop :=
  decode 0x51000000#32 = .ok .bufSz ∧
  ∀ s : State, ∃ w, exec .bufSz s = .next { s with responses := s.responses ++ [w] } ∧
    (s.queue.length ≤ 255 → w.toNat = s.queue.length)

/-- 45_async_tx.md R161: TICK in phase START. -/
def Obligations.TickInStartPopsAndDrives : Prop :=
  ∀ s : State, s.phase = .start →
    (s.lock = true ∨ s.queue = [] → exec .tick s = .next s) ∧
    (∀ b q, s.lock = false → s.queue = b :: q →
      (∀ id rev, s.lineId = some id → s.rev = some rev →
        exec .tick s = .next { s with
          curByte := some b, queue := q, bitIdx := 0#3, phase := .sending,
          ev := s.ev ++ [.lineSet id (0#1 ^^^ rev)], lineLevel := some (0#1 ^^^ rev) }) ∧
      (s.lineId = none ∨ s.rev = none →
        ∃ f, exec .tick s = .fault (.cfgUnwritten f) ∧ (f = .lineId ∨ f = .rev) ∧ s.written f = false))

/-- 45_async_tx.md R162: TICK in phase SENDING. (While `cur_byte` is unwritten, in no reachable state, the level of a data
bit is a free value: assumption log 4.) -/
def Obligations.TickInSendingDrivesTheNextBit : Prop :=
  ∀ s : State, s.phase = .sending →
    (∀ id rev, s.lineId = some id → s.rev = some rev →
      (∀ b, s.bitIdx.toNat < 7 → s.curByte = some b →
        exec .tick s = .next { s with
          bitIdx := s.bitIdx + 1#3,
          ev := s.ev ++ [.lineSet id (b.extractLsb' s.bitIdx.toNat 1 ^^^ rev)],
          lineLevel := some (b.extractLsb' s.bitIdx.toNat 1 ^^^ rev) }) ∧
      (s.bitIdx.toNat < 7 → s.curByte = none →
        ∃ l, exec .tick s = .next { s with
          bitIdx := s.bitIdx + 1#3, ev := s.ev ++ [.lineSet id l], lineLevel := some l }) ∧
      (s.bitIdx.toNat = 7 →
        exec .tick s = .next { s with
          phase := .stop, ev := s.ev ++ [.lineSet id (1#1 ^^^ rev)], lineLevel := some (1#1 ^^^ rev) })) ∧
    (s.lineId = none ∨ s.rev = none →
      ∃ f, exec .tick s = .fault (.cfgUnwritten f) ∧ (f = .lineId ∨ f = .rev) ∧ s.written f = false)

/-- 45_async_tx.md R163: TICK in phase STOP. -/
def Obligations.TickInStopReturnsToStart : Prop :=
  ∀ s : State, s.phase = .stop →
    (∀ sh, s.stopHalves = some sh →
      (∀ id rev, sh.toNat = 4 → s.lineId = some id → s.rev = some rev →
        exec .tick s = .next { s with
          phase := .start, ev := s.ev ++ [.lineSet id (1#1 ^^^ rev)], lineLevel := some (1#1 ^^^ rev) }) ∧
      (sh.toNat ≠ 4 → exec .tick s = .next { s with phase := .start }) ∧
      (sh.toNat = 4 → s.lineId = none ∨ s.rev = none →
        ∃ f, exec .tick s = .fault (.cfgUnwritten f) ∧ (f = .lineId ∨ f = .rev) ∧ s.written f = false)) ∧
    (s.stopHalves = none → exec .tick s = .fault (.cfgUnwritten .stopHalves))

/-- 45_async_tx.md R165, R167: `N` queued bytes are drained by exactly `10 × N` ticks, which put the `N` frames on the
line in order; further ticks are no-ops; after fewer ticks the phase is not START or the queue is not empty. -/
def Obligations.TenTicksDrainEachQueuedByte : Prop :=
  ∀ (N : Nat) (s : State) (ts : List Context) (id : Byte) (rev : Flag) (sh : BitVec 3), TickConfig s id rev sh →
    s.queue.length = N → s.phase = .start → s.lock = false → s.turns = List.replicate (10 * N) .tick ++ ts →
    (∃ t, run (10 * N) s = .next t ∧ t.queue = [] ∧ t.phase = .start ∧ t.turns = ts ∧
      exec .tick t = .next t ∧ t.ev = s.ev ++ s.queue.flatMap (asyncFrame id rev sh) ∧
      (s.queue.flatMap (asyncFrame id rev sh)).length = if sh = 4#3 then 10 * N else 9 * N) ∧
    (∀ k, k < 10 * N → ∃ u, run k s = .next u ∧ (u.phase ≠ .start ∨ u.queue ≠ []))

/-- 70_reset_and_hazards.md R214: a run with nothing left for the HOST to do is over after `10 × qsize` ticks and those
left of the byte in flight, and not before; further ticks are no-ops. -/
def Obligations.EnoughTicksEndTheRun : Prop :=
  ∀ (s : State) (ts : List Context) (id : Byte) (rev : Flag) (sh : BitVec 3), TickConfig s id rev sh →
    s.port = [] → s.pending = [] → s.lock = false →
    s.turns = List.replicate (10 * s.qsize + ticksOfByteInFlight s) .tick ++ ts →
    (∃ t, run (10 * s.qsize + ticksOfByteInFlight s) s = .next t ∧ RunOver t ∧ exec .tick t = .next t) ∧
    (∀ k, k < 10 * s.qsize + ticksOfByteInFlight s → ∃ u, run k s = .next u ∧ ¬ RunOver u)

/-! ### Rules of the whole machine -/

/-- 10_state.md R31, last item, 45_async_tx.md R158, 20_memory.md R52: in a step the queue stays, or loses its oldest byte
to `cur_byte` while the lock is free, or gains one byte at its tail while the lock is held. -/
def Obligations.QueueIsAFifoUnderTheLock : Prop :=
  ∀ s t : State, HostPosition s → step s = .next t →
    t.queue = s.queue ∨
    (s.lock = false ∧ ∃ b, s.queue = b :: t.queue ∧ t.curByte = some b) ∨
    (s.lock = true ∧ s.queue.length < 255 ∧ ∃ b, t.queue = s.queue ++ [b])

/-- 60_exceptions.md R195, 10_state.md R15: no step of the HOST writes `phase`, `bit_idx` or `cur_byte`. -/
def Obligations.OnlyTicksWriteTheTransmissionPhase : Prop :=
  ∀ s t : State, step s = .next t → s.turns.head? ≠ some .tick →
    t.phase = s.phase ∧ t.bitIdx = s.bitIdx ∧ t.curByte = s.curByte

/-- 60_exceptions.md R185, 20_memory.md R51: a TICK changes nothing but `Q`, `phase`, `bit_idx`, `cur_byte`, `line_level`
and `EV`, and emits at most one event, a LINE_SET (45_async_tx.md R160, R166). -/
def Obligations.TickLeavesTheHostSideAlone : Prop :=
  ∀ s t : State, exec .tick s = .next t →
    t = { s with
      queue := t.queue, phase := t.phase, bitIdx := t.bitIdx, curByte := t.curByte, lineLevel := t.lineLevel,
      ev := t.ev } ∧
    (∀ a, t.memRead a = s.memRead a) ∧
    (t.ev = s.ev ∨ ∃ id l, t.ev = s.ev ++ [.lineSet id l] ∧ t.lineLevel = some l)

/-- 30_encoding.md R63, 20_memory.md R45: the six commands that return a value give exactly one response word and change
nothing else; the other commands, each micro-step of one, and TICK give none. -/
def Obligations.ReadersAnswerOnceAndChangeNothing : Prop :=
  (∀ (i : Instr) (s t : State), exec i s = .next t →
    (i.returnsWord = true → ∃ w, t = { s with responses := s.responses ++ [w] }) ∧
    (i.returnsWord = false → t.responses = s.responses)) ∧
  (∀ (m : MicroStep) (s t : State), execMicro m s = .next t → t.responses = s.responses)

/-- 00_scope.md R8, 10_state.md R13: the event history only grows, and a step that drives the line leaves `line_level` at
the level it drove last; a step that drives nothing leaves `line_level` as it was. -/
def Obligations.HistoryOnlyGrowsAndTheLineFollows : Prop :=
  ∀ s t : State, step s = .next t → ∃ es, t.ev = s.ev ++ es ∧
    ((∃ id l, es = [.lineSet id l] ∧ t.lineLevel = some l) ∨
      ((∀ id l, Event.lineSet id l ∉ es) ∧ t.lineLevel = s.lineLevel))

/-- The invariants of 10_state.md R31 hold at reset. (The capacity `State.reset` names is the model's choice, assumption
log 3; the clause holds for every legal capacity.) -/
def Obligations.ResetMeetsTheInvariants : Prop :=
  ∀ cap : BitVec 16, cap ≠ 0#16 → Inv { State.reset with msgCap := cap }

/-- 10_state.md R31: every step keeps the invariants: the capacity of the queue and of the buffer, the byte in flight,
the ranges of the configuration, the lock held only inside TXASYNC, and the canonical form of memory. -/
def Obligations.EveryStepKeepsTheInvariants : Prop :=
  ∀ s t : State, Inv s → step s = .next t → Inv t

/-- Under the invariants no step ends in the model's own fault `msgByteUnwritten` (assumption log 6), and a TICK reads a
written `cur_byte` (10_state.md R23). -/
def Obligations.NoRunReadsAByteWithoutAValue : Prop :=
  ∀ s : State, Inv s → step s ≠ .fault .msgByteUnwritten ∧ (s.phase = .sending → ∃ b, s.curByte = some b)
end

