-- ==== Sys2Proof/Laws/Decode.lean ====
section
/-! SUPPORT. The fields of an encoded word (spec/30_encoding.md R60, R61): the opcode and operand of `op << 24 | arg`, and
the words of each format. -/

namespace Sys2Proof

/-- An operand of at most 24 bits does not reach the opcode field. -/
theorem opcodeField_or {n : Nat} (hn : n ≤ 24) (op : Word) (v : BitVec n) :
    opcodeField (op ||| v.setWidth 32) = opcodeField op := by
  ext i hi
  simp only [opcodeField, BitVec.getElem_extractLsb', BitVec.getLsbD_or, BitVec.getLsbD_setWidth]
  rw [BitVec.getLsbD_of_ge v _ (by omega)]
  simp

/-- Every word is its opcode field, shifted, with its low 24 bits. -/
theorem word_eq_opcode_or_fieldR (w : Word) :
    w = (opcodeField w).setWidth 32 <<< 24 ||| (fieldR w).setWidth 32 := by
  ext i hi
  simp only [opcodeField, fieldR, BitVec.getElem_or, BitVec.getElem_shiftLeft, BitVec.getElem_setWidth,
    BitVec.getLsbD_extractLsb']
  by_cases h : i < 24
  · simp [h, BitVec.getLsbD_eq_getElem hi]
  · have h1 : 24 + (i - 24) = i := by omega
    have h2 : i - 24 < 8 := by omega
    simp [h, h1, h2, hi]

/-- A word that a format admits decodes to its instruction. -/
theorem checked_of_zero {f : Format} {w : Word} {i : Instr} (h : w &&& f.mustBeZero = 0#32) : checked f w i = .ok i := by
  simp [checked, h]

/-- A word decodes to an instruction only if its format admits it. -/
theorem checked_ok {f : Format} {w : Word} {i j : Instr} (h : checked f w i = .ok j) :
    w &&& f.mustBeZero = 0#32 ∧ i = j := by
  unfold checked at h
  split at h
  · next hz => exact ⟨hz, by simpa using h⟩
  · simp at h

/-- An operand is clear of a mask that lies above its width. -/
theorem setWidth_and_eq_zero {n : Nat} (v : BitVec n) (m : Word) (h : m.extractLsb' 0 n = 0#n) :
    v.setWidth 32 &&& m = 0#32 := by
  ext i hi
  simp only [BitVec.getElem_and, BitVec.getElem_setWidth, BitVec.getElem_zero, Bool.and_eq_false_imp]
  intro hv
  have hin : i < n := by
    by_contra hc
    rw [BitVec.getLsbD_of_ge v i (by omega)] at hv
    cases hv
  have hz := congrArg (fun x => x.getLsbD i) h
  simpa [BitVec.getLsbD_extractLsb', hin, BitVec.getLsbD_eq_getElem hi] using hz

/-- A word `op << 24 | v` whose format leaves the bits of `v` free has no must-be-zero bit set. -/
theorem or_setWidth_and_eq_zero {n : Nat} {op m : Word} (v : BitVec n) (hop : op &&& m = 0#32)
    (hm : m.extractLsb' 0 n = 0#n) : (op ||| v.setWidth 32) &&& m = 0#32 := by
  have hv := setWidth_and_eq_zero v m hm
  ext i hi
  have h1 := congrArg (fun x => x[i]) hop
  have h2 := congrArg (fun x => x[i]) hv
  simp only [BitVec.getElem_and, BitVec.getElem_or, BitVec.getElem_zero] at h1 h2 ⊢
  rw [Bool.and_or_distrib_right, h1, h2]
  rfl

/-- The operand of a word `op << 24 | v` is `v`. -/
theorem extract_or_setWidth {n : Nat} (op : Word) (v : BitVec n) (hn : n ≤ 32) (hop : op.extractLsb' 0 n = 0#n) :
    (op ||| v.setWidth 32).extractLsb' 0 n = v := by
  ext i hi
  have h1 := congrArg (fun x => x.getLsbD i) hop
  simp only [BitVec.getLsbD_extractLsb', hi, decide_true, Bool.true_and, Nat.zero_add, BitVec.getLsbD_zero] at h1
  have h32 : i < 32 := by omega
  rw [BitVec.getLsbD_eq_getElem h32] at h1
  simp [h1, h32, BitVec.getLsbD_eq_getElem hi]

/-- The operand field of a word whose must-be-zero bits are zero is its operand, zero-extended. -/
theorem fieldR_of_mustBeZero {n : Nat} {w m : Word} (h : w &&& m = 0#32) (hn : n ≤ 24)
    (hm : ∀ i, i < 24 → n ≤ i → m.getLsbD i = true) : (fieldR w).setWidth 32 = (w.extractLsb' 0 n).setWidth 32 := by
  ext i hi
  simp only [fieldR, BitVec.getElem_setWidth, BitVec.getLsbD_extractLsb', Nat.zero_add]
  by_cases h1 : i < n
  · have h24 : i < 24 := by omega
    simp [h1, h24]
  · by_cases h2 : i < 24
    · have hz := congrArg (fun x => x.getLsbD i) h
      have hb : w.getLsbD i = false := by simpa [hm i h2 (by omega)] using hz
      simp [hb]
    · simp [h1, h2]

end Sys2Proof
end

