-- ==== Sys2Proof/Laws/State.lean ====
section
/-! SUPPORT. The state updates of Machine/Ops.lean and Machine/Flags.lean, field by field: one lemma for each field of
each update, so that no later proof unfolds one. -/

namespace Sys2Proof.Machine.State

variable (s : State)

/-! ### `emit` -/

@[simp] theorem emit_crc (e : Event) : (s.emit e).crc = s.crc := rfl
@[simp] theorem emit_curByte (e : Event) : (s.emit e).curByte = s.curByte := rfl
@[simp] theorem emit_lineLevel (e : Event) : (s.emit e).lineLevel = s.lineLevel := rfl
@[simp] theorem emit_phase (e : Event) : (s.emit e).phase = s.phase := rfl
@[simp] theorem emit_bitIdx (e : Event) : (s.emit e).bitIdx = s.bitIdx := rfl
@[simp] theorem emit_lock (e : Event) : (s.emit e).lock = s.lock := rfl
@[simp] theorem emit_lineId (e : Event) : (s.emit e).lineId = s.lineId := rfl
@[simp] theorem emit_timestep (e : Event) : (s.emit e).timestep = s.timestep := rfl
@[simp] theorem emit_cksum (e : Event) : (s.emit e).cksum = s.cksum := rfl
@[simp] theorem emit_stopHalves (e : Event) : (s.emit e).stopHalves = s.stopHalves := rfl
@[simp] theorem emit_rev (e : Event) : (s.emit e).rev = s.rev := rfl
@[simp] theorem emit_echo (e : Event) : (s.emit e).echo = s.echo := rfl
@[simp] theorem emit_msg (e : Event) : (s.emit e).msg = s.msg := rfl
@[simp] theorem emit_msgLen (e : Event) : (s.emit e).msgLen = s.msgLen := rfl
@[simp] theorem emit_queue (e : Event) : (s.emit e).queue = s.queue := rfl
@[simp] theorem emit_ev (e : Event) : (s.emit e).ev = s.ev ++ [e] := rfl
@[simp] theorem emit_responses (e : Event) : (s.emit e).responses = s.responses := rfl
@[simp] theorem emit_pending (e : Event) : (s.emit e).pending = s.pending := rfl
@[simp] theorem emit_port (e : Event) : (s.emit e).port = s.port := rfl
@[simp] theorem emit_turns (e : Event) : (s.emit e).turns = s.turns := rfl
@[simp] theorem emit_msgCap (e : Event) : (s.emit e).msgCap = s.msgCap := rfl

/-! ### `driveTo` -/

@[simp] theorem driveTo_crc (id : Byte) (l : Level) : (s.driveTo id l).crc = s.crc := rfl
@[simp] theorem driveTo_curByte (id : Byte) (l : Level) : (s.driveTo id l).curByte = s.curByte := rfl
@[simp] theorem driveTo_lineLevel (id : Byte) (l : Level) : (s.driveTo id l).lineLevel = some l := rfl
@[simp] theorem driveTo_phase (id : Byte) (l : Level) : (s.driveTo id l).phase = s.phase := rfl
@[simp] theorem driveTo_bitIdx (id : Byte) (l : Level) : (s.driveTo id l).bitIdx = s.bitIdx := rfl
@[simp] theorem driveTo_lock (id : Byte) (l : Level) : (s.driveTo id l).lock = s.lock := rfl
@[simp] theorem driveTo_lineId (id : Byte) (l : Level) : (s.driveTo id l).lineId = s.lineId := rfl
@[simp] theorem driveTo_timestep (id : Byte) (l : Level) : (s.driveTo id l).timestep = s.timestep := rfl
@[simp] theorem driveTo_cksum (id : Byte) (l : Level) : (s.driveTo id l).cksum = s.cksum := rfl
@[simp] theorem driveTo_stopHalves (id : Byte) (l : Level) : (s.driveTo id l).stopHalves = s.stopHalves := rfl
@[simp] theorem driveTo_rev (id : Byte) (l : Level) : (s.driveTo id l).rev = s.rev := rfl
@[simp] theorem driveTo_echo (id : Byte) (l : Level) : (s.driveTo id l).echo = s.echo := rfl
@[simp] theorem driveTo_msg (id : Byte) (l : Level) : (s.driveTo id l).msg = s.msg := rfl
@[simp] theorem driveTo_msgLen (id : Byte) (l : Level) : (s.driveTo id l).msgLen = s.msgLen := rfl
@[simp] theorem driveTo_queue (id : Byte) (l : Level) : (s.driveTo id l).queue = s.queue := rfl
@[simp] theorem driveTo_ev (id : Byte) (l : Level) : (s.driveTo id l).ev = s.ev ++ [.lineSet id l] := rfl
@[simp] theorem driveTo_responses (id : Byte) (l : Level) : (s.driveTo id l).responses = s.responses := rfl
@[simp] theorem driveTo_pending (id : Byte) (l : Level) : (s.driveTo id l).pending = s.pending := rfl
@[simp] theorem driveTo_port (id : Byte) (l : Level) : (s.driveTo id l).port = s.port := rfl
@[simp] theorem driveTo_turns (id : Byte) (l : Level) : (s.driveTo id l).turns = s.turns := rfl
@[simp] theorem driveTo_msgCap (id : Byte) (l : Level) : (s.driveTo id l).msgCap = s.msgCap := rfl

/-! ### `respond` -/

@[simp] theorem respond_crc (w : Word) : (s.respond w).crc = s.crc := rfl
@[simp] theorem respond_curByte (w : Word) : (s.respond w).curByte = s.curByte := rfl
@[simp] theorem respond_lineLevel (w : Word) : (s.respond w).lineLevel = s.lineLevel := rfl
@[simp] theorem respond_phase (w : Word) : (s.respond w).phase = s.phase := rfl
@[simp] theorem respond_bitIdx (w : Word) : (s.respond w).bitIdx = s.bitIdx := rfl
@[simp] theorem respond_lock (w : Word) : (s.respond w).lock = s.lock := rfl
@[simp] theorem respond_lineId (w : Word) : (s.respond w).lineId = s.lineId := rfl
@[simp] theorem respond_timestep (w : Word) : (s.respond w).timestep = s.timestep := rfl
@[simp] theorem respond_cksum (w : Word) : (s.respond w).cksum = s.cksum := rfl
@[simp] theorem respond_stopHalves (w : Word) : (s.respond w).stopHalves = s.stopHalves := rfl
@[simp] theorem respond_rev (w : Word) : (s.respond w).rev = s.rev := rfl
@[simp] theorem respond_echo (w : Word) : (s.respond w).echo = s.echo := rfl
@[simp] theorem respond_msg (w : Word) : (s.respond w).msg = s.msg := rfl
@[simp] theorem respond_msgLen (w : Word) : (s.respond w).msgLen = s.msgLen := rfl
@[simp] theorem respond_queue (w : Word) : (s.respond w).queue = s.queue := rfl
@[simp] theorem respond_ev (w : Word) : (s.respond w).ev = s.ev := rfl
@[simp] theorem respond_responses (w : Word) : (s.respond w).responses = s.responses ++ [w] := rfl
@[simp] theorem respond_pending (w : Word) : (s.respond w).pending = s.pending := rfl
@[simp] theorem respond_port (w : Word) : (s.respond w).port = s.port := rfl
@[simp] theorem respond_turns (w : Word) : (s.respond w).turns = s.turns := rfl
@[simp] theorem respond_msgCap (w : Word) : (s.respond w).msgCap = s.msgCap := rfl

/-! ### `appendByte` -/

@[simp] theorem appendByte_crc (b : Byte) : (s.appendByte b).crc = s.crc := rfl
@[simp] theorem appendByte_curByte (b : Byte) : (s.appendByte b).curByte = s.curByte := rfl
@[simp] theorem appendByte_lineLevel (b : Byte) : (s.appendByte b).lineLevel = s.lineLevel := rfl
@[simp] theorem appendByte_phase (b : Byte) : (s.appendByte b).phase = s.phase := rfl
@[simp] theorem appendByte_bitIdx (b : Byte) : (s.appendByte b).bitIdx = s.bitIdx := rfl
@[simp] theorem appendByte_lock (b : Byte) : (s.appendByte b).lock = s.lock := rfl
@[simp] theorem appendByte_lineId (b : Byte) : (s.appendByte b).lineId = s.lineId := rfl
@[simp] theorem appendByte_timestep (b : Byte) : (s.appendByte b).timestep = s.timestep := rfl
@[simp] theorem appendByte_cksum (b : Byte) : (s.appendByte b).cksum = s.cksum := rfl
@[simp] theorem appendByte_stopHalves (b : Byte) : (s.appendByte b).stopHalves = s.stopHalves := rfl
@[simp] theorem appendByte_rev (b : Byte) : (s.appendByte b).rev = s.rev := rfl
@[simp] theorem appendByte_echo (b : Byte) : (s.appendByte b).echo = s.echo := rfl
@[simp] theorem appendByte_msg (b : Byte) : (s.appendByte b).msg = memStore s.msg s.msgLen.toNat b := rfl
@[simp] theorem appendByte_msgLen (b : Byte) : (s.appendByte b).msgLen = s.msgLen + 1#16 := rfl
@[simp] theorem appendByte_queue (b : Byte) : (s.appendByte b).queue = s.queue := rfl
@[simp] theorem appendByte_ev (b : Byte) : (s.appendByte b).ev = s.ev := rfl
@[simp] theorem appendByte_responses (b : Byte) : (s.appendByte b).responses = s.responses := rfl
@[simp] theorem appendByte_pending (b : Byte) : (s.appendByte b).pending = s.pending := rfl
@[simp] theorem appendByte_port (b : Byte) : (s.appendByte b).port = s.port := rfl
@[simp] theorem appendByte_turns (b : Byte) : (s.appendByte b).turns = s.turns := rfl
@[simp] theorem appendByte_msgCap (b : Byte) : (s.appendByte b).msgCap = s.msgCap := rfl

/-! ### `holdLock` -/

@[simp] theorem holdLock_crc : (s.holdLock).crc = s.crc := rfl
@[simp] theorem holdLock_curByte : (s.holdLock).curByte = s.curByte := rfl
@[simp] theorem holdLock_lineLevel : (s.holdLock).lineLevel = s.lineLevel := rfl
@[simp] theorem holdLock_phase : (s.holdLock).phase = s.phase := rfl
@[simp] theorem holdLock_bitIdx : (s.holdLock).bitIdx = s.bitIdx := rfl
@[simp] theorem holdLock_lock : (s.holdLock).lock = true := rfl
@[simp] theorem holdLock_lineId : (s.holdLock).lineId = s.lineId := rfl
@[simp] theorem holdLock_timestep : (s.holdLock).timestep = s.timestep := rfl
@[simp] theorem holdLock_cksum : (s.holdLock).cksum = s.cksum := rfl
@[simp] theorem holdLock_stopHalves : (s.holdLock).stopHalves = s.stopHalves := rfl
@[simp] theorem holdLock_rev : (s.holdLock).rev = s.rev := rfl
@[simp] theorem holdLock_echo : (s.holdLock).echo = s.echo := rfl
@[simp] theorem holdLock_msg : (s.holdLock).msg = s.msg := rfl
@[simp] theorem holdLock_msgLen : (s.holdLock).msgLen = s.msgLen := rfl
@[simp] theorem holdLock_queue : (s.holdLock).queue = s.queue := rfl
@[simp] theorem holdLock_ev : (s.holdLock).ev = s.ev := rfl
@[simp] theorem holdLock_responses : (s.holdLock).responses = s.responses := rfl
@[simp] theorem holdLock_pending : (s.holdLock).pending = s.pending := rfl
@[simp] theorem holdLock_port : (s.holdLock).port = s.port := rfl
@[simp] theorem holdLock_turns : (s.holdLock).turns = s.turns := rfl
@[simp] theorem holdLock_msgCap : (s.holdLock).msgCap = s.msgCap := rfl

/-! ### `releaseLock` -/

@[simp] theorem releaseLock_crc : (s.releaseLock).crc = s.crc := rfl
@[simp] theorem releaseLock_curByte : (s.releaseLock).curByte = s.curByte := rfl
@[simp] theorem releaseLock_lineLevel : (s.releaseLock).lineLevel = s.lineLevel := rfl
@[simp] theorem releaseLock_phase : (s.releaseLock).phase = s.phase := rfl
@[simp] theorem releaseLock_bitIdx : (s.releaseLock).bitIdx = s.bitIdx := rfl
@[simp] theorem releaseLock_lock : (s.releaseLock).lock = false := rfl
@[simp] theorem releaseLock_lineId : (s.releaseLock).lineId = s.lineId := rfl
@[simp] theorem releaseLock_timestep : (s.releaseLock).timestep = s.timestep := rfl
@[simp] theorem releaseLock_cksum : (s.releaseLock).cksum = s.cksum := rfl
@[simp] theorem releaseLock_stopHalves : (s.releaseLock).stopHalves = s.stopHalves := rfl
@[simp] theorem releaseLock_rev : (s.releaseLock).rev = s.rev := rfl
@[simp] theorem releaseLock_echo : (s.releaseLock).echo = s.echo := rfl
@[simp] theorem releaseLock_msg : (s.releaseLock).msg = s.msg := rfl
@[simp] theorem releaseLock_msgLen : (s.releaseLock).msgLen = s.msgLen := rfl
@[simp] theorem releaseLock_queue : (s.releaseLock).queue = s.queue := rfl
@[simp] theorem releaseLock_ev : (s.releaseLock).ev = s.ev := rfl
@[simp] theorem releaseLock_responses : (s.releaseLock).responses = s.responses := rfl
@[simp] theorem releaseLock_pending : (s.releaseLock).pending = s.pending := rfl
@[simp] theorem releaseLock_port : (s.releaseLock).port = s.port := rfl
@[simp] theorem releaseLock_turns : (s.releaseLock).turns = s.turns := rfl
@[simp] theorem releaseLock_msgCap : (s.releaseLock).msgCap = s.msgCap := rfl

/-! ### `leave` -/

@[simp] theorem leave_crc (l : List MicroStep) : (s.leave l).crc = s.crc := rfl
@[simp] theorem leave_curByte (l : List MicroStep) : (s.leave l).curByte = s.curByte := rfl
@[simp] theorem leave_lineLevel (l : List MicroStep) : (s.leave l).lineLevel = s.lineLevel := rfl
@[simp] theorem leave_phase (l : List MicroStep) : (s.leave l).phase = s.phase := rfl
@[simp] theorem leave_bitIdx (l : List MicroStep) : (s.leave l).bitIdx = s.bitIdx := rfl
@[simp] theorem leave_lock (l : List MicroStep) : (s.leave l).lock = s.lock := rfl
@[simp] theorem leave_lineId (l : List MicroStep) : (s.leave l).lineId = s.lineId := rfl
@[simp] theorem leave_timestep (l : List MicroStep) : (s.leave l).timestep = s.timestep := rfl
@[simp] theorem leave_cksum (l : List MicroStep) : (s.leave l).cksum = s.cksum := rfl
@[simp] theorem leave_stopHalves (l : List MicroStep) : (s.leave l).stopHalves = s.stopHalves := rfl
@[simp] theorem leave_rev (l : List MicroStep) : (s.leave l).rev = s.rev := rfl
@[simp] theorem leave_echo (l : List MicroStep) : (s.leave l).echo = s.echo := rfl
@[simp] theorem leave_msg (l : List MicroStep) : (s.leave l).msg = s.msg := rfl
@[simp] theorem leave_msgLen (l : List MicroStep) : (s.leave l).msgLen = s.msgLen := rfl
@[simp] theorem leave_queue (l : List MicroStep) : (s.leave l).queue = s.queue := rfl
@[simp] theorem leave_ev (l : List MicroStep) : (s.leave l).ev = s.ev := rfl
@[simp] theorem leave_responses (l : List MicroStep) : (s.leave l).responses = s.responses := rfl
@[simp] theorem leave_pending (l : List MicroStep) : (s.leave l).pending = l := rfl
@[simp] theorem leave_port (l : List MicroStep) : (s.leave l).port = s.port := rfl
@[simp] theorem leave_turns (l : List MicroStep) : (s.leave l).turns = s.turns := rfl
@[simp] theorem leave_msgCap (l : List MicroStep) : (s.leave l).msgCap = s.msgCap := rfl

/-! ### `useTurn` -/

@[simp] theorem useTurn_crc : (s.useTurn).crc = s.crc := rfl
@[simp] theorem useTurn_curByte : (s.useTurn).curByte = s.curByte := rfl
@[simp] theorem useTurn_lineLevel : (s.useTurn).lineLevel = s.lineLevel := rfl
@[simp] theorem useTurn_phase : (s.useTurn).phase = s.phase := rfl
@[simp] theorem useTurn_bitIdx : (s.useTurn).bitIdx = s.bitIdx := rfl
@[simp] theorem useTurn_lock : (s.useTurn).lock = s.lock := rfl
@[simp] theorem useTurn_lineId : (s.useTurn).lineId = s.lineId := rfl
@[simp] theorem useTurn_timestep : (s.useTurn).timestep = s.timestep := rfl
@[simp] theorem useTurn_cksum : (s.useTurn).cksum = s.cksum := rfl
@[simp] theorem useTurn_stopHalves : (s.useTurn).stopHalves = s.stopHalves := rfl
@[simp] theorem useTurn_rev : (s.useTurn).rev = s.rev := rfl
@[simp] theorem useTurn_echo : (s.useTurn).echo = s.echo := rfl
@[simp] theorem useTurn_msg : (s.useTurn).msg = s.msg := rfl
@[simp] theorem useTurn_msgLen : (s.useTurn).msgLen = s.msgLen := rfl
@[simp] theorem useTurn_queue : (s.useTurn).queue = s.queue := rfl
@[simp] theorem useTurn_ev : (s.useTurn).ev = s.ev := rfl
@[simp] theorem useTurn_responses : (s.useTurn).responses = s.responses := rfl
@[simp] theorem useTurn_pending : (s.useTurn).pending = s.pending := rfl
@[simp] theorem useTurn_port : (s.useTurn).port = s.port := rfl
@[simp] theorem useTurn_turns : (s.useTurn).turns = s.turns.tail := rfl
@[simp] theorem useTurn_msgCap : (s.useTurn).msgCap = s.msgCap := rfl

/-! ### `present` -/

@[simp] theorem present_crc (w : Word) : (s.present w).crc = s.crc := rfl
@[simp] theorem present_curByte (w : Word) : (s.present w).curByte = s.curByte := rfl
@[simp] theorem present_lineLevel (w : Word) : (s.present w).lineLevel = s.lineLevel := rfl
@[simp] theorem present_phase (w : Word) : (s.present w).phase = s.phase := rfl
@[simp] theorem present_bitIdx (w : Word) : (s.present w).bitIdx = s.bitIdx := rfl
@[simp] theorem present_lock (w : Word) : (s.present w).lock = s.lock := rfl
@[simp] theorem present_lineId (w : Word) : (s.present w).lineId = s.lineId := rfl
@[simp] theorem present_timestep (w : Word) : (s.present w).timestep = s.timestep := rfl
@[simp] theorem present_cksum (w : Word) : (s.present w).cksum = s.cksum := rfl
@[simp] theorem present_stopHalves (w : Word) : (s.present w).stopHalves = s.stopHalves := rfl
@[simp] theorem present_rev (w : Word) : (s.present w).rev = s.rev := rfl
@[simp] theorem present_echo (w : Word) : (s.present w).echo = s.echo := rfl
@[simp] theorem present_msg (w : Word) : (s.present w).msg = s.msg := rfl
@[simp] theorem present_msgLen (w : Word) : (s.present w).msgLen = s.msgLen := rfl
@[simp] theorem present_queue (w : Word) : (s.present w).queue = s.queue := rfl
@[simp] theorem present_ev (w : Word) : (s.present w).ev = s.ev := rfl
@[simp] theorem present_responses (w : Word) : (s.present w).responses = s.responses := rfl
@[simp] theorem present_pending (w : Word) : (s.present w).pending = [] := rfl
@[simp] theorem present_port (w : Word) : (s.present w).port = w :: s.port := rfl
@[simp] theorem present_turns (w : Word) : (s.present w).turns = .host :: s.turns := rfl
@[simp] theorem present_msgCap (w : Word) : (s.present w).msgCap = s.msgCap := rfl

/-! ### `push` -/

@[simp] theorem push_crc (b : Byte) : (s.push b).crc = s.crc := by unfold push; split <;> rfl
@[simp] theorem push_curByte (b : Byte) : (s.push b).curByte = s.curByte := by unfold push; split <;> rfl
@[simp] theorem push_lineLevel (b : Byte) : (s.push b).lineLevel = s.lineLevel := by unfold push; split <;> rfl
@[simp] theorem push_phase (b : Byte) : (s.push b).phase = s.phase := by unfold push; split <;> rfl
@[simp] theorem push_bitIdx (b : Byte) : (s.push b).bitIdx = s.bitIdx := by unfold push; split <;> rfl
@[simp] theorem push_lock (b : Byte) : (s.push b).lock = s.lock := by unfold push; split <;> rfl
@[simp] theorem push_lineId (b : Byte) : (s.push b).lineId = s.lineId := by unfold push; split <;> rfl
@[simp] theorem push_timestep (b : Byte) : (s.push b).timestep = s.timestep := by unfold push; split <;> rfl
@[simp] theorem push_cksum (b : Byte) : (s.push b).cksum = s.cksum := by unfold push; split <;> rfl
@[simp] theorem push_stopHalves (b : Byte) : (s.push b).stopHalves = s.stopHalves := by unfold push; split <;> rfl
@[simp] theorem push_rev (b : Byte) : (s.push b).rev = s.rev := by unfold push; split <;> rfl
@[simp] theorem push_echo (b : Byte) : (s.push b).echo = s.echo := by unfold push; split <;> rfl
@[simp] theorem push_msg (b : Byte) : (s.push b).msg = s.msg := by unfold push; split <;> rfl
@[simp] theorem push_msgLen (b : Byte) : (s.push b).msgLen = s.msgLen := by unfold push; split <;> rfl
theorem push_queue (b : Byte) : (s.push b).queue = if s.queue.length < 255 then s.queue ++ [b] else s.queue := by
  unfold push qsize; split <;> rfl
@[simp] theorem push_ev (b : Byte) : (s.push b).ev = s.ev := by unfold push; split <;> rfl
@[simp] theorem push_responses (b : Byte) : (s.push b).responses = s.responses := by unfold push; split <;> rfl
@[simp] theorem push_pending (b : Byte) : (s.push b).pending = s.pending := by unfold push; split <;> rfl
@[simp] theorem push_port (b : Byte) : (s.push b).port = s.port := by unfold push; split <;> rfl
@[simp] theorem push_turns (b : Byte) : (s.push b).turns = s.turns := by unfold push; split <;> rfl
@[simp] theorem push_msgCap (b : Byte) : (s.push b).msgCap = s.msgCap := by unfold push; split <;> rfl

/-! ### `appendBytes` -/

@[simp] theorem appendBytes_nil : s.appendBytes [] = s := rfl

@[simp] theorem appendBytes_cons (b : Byte) (bs : List Byte) :
    s.appendBytes (b :: bs) = (s.appendByte b).appendBytes bs := rfl

@[simp] theorem appendBytes_crc (bs : List Byte) : (s.appendBytes bs).crc = s.crc := by
  induction bs generalizing s with
  | nil => rfl
  | cons b bs ih => rw [appendBytes_cons, ih]; rfl
@[simp] theorem appendBytes_curByte (bs : List Byte) : (s.appendBytes bs).curByte = s.curByte := by
  induction bs generalizing s with
  | nil => rfl
  | cons b bs ih => rw [appendBytes_cons, ih]; rfl
@[simp] theorem appendBytes_lineLevel (bs : List Byte) : (s.appendBytes bs).lineLevel = s.lineLevel := by
  induction bs generalizing s with
  | nil => rfl
  | cons b bs ih => rw [appendBytes_cons, ih]; rfl
@[simp] theorem appendBytes_phase (bs : List Byte) : (s.appendBytes bs).phase = s.phase := by
  induction bs generalizing s with
  | nil => rfl
  | cons b bs ih => rw [appendBytes_cons, ih]; rfl
@[simp] theorem appendBytes_bitIdx (bs : List Byte) : (s.appendBytes bs).bitIdx = s.bitIdx := by
  induction bs generalizing s with
  | nil => rfl
  | cons b bs ih => rw [appendBytes_cons, ih]; rfl
@[simp] theorem appendBytes_lock (bs : List Byte) : (s.appendBytes bs).lock = s.lock := by
  induction bs generalizing s with
  | nil => rfl
  | cons b bs ih => rw [appendBytes_cons, ih]; rfl
@[simp] theorem appendBytes_lineId (bs : List Byte) : (s.appendBytes bs).lineId = s.lineId := by
  induction bs generalizing s with
  | nil => rfl
  | cons b bs ih => rw [appendBytes_cons, ih]; rfl
@[simp] theorem appendBytes_timestep (bs : List Byte) : (s.appendBytes bs).timestep = s.timestep := by
  induction bs generalizing s with
  | nil => rfl
  | cons b bs ih => rw [appendBytes_cons, ih]; rfl
@[simp] theorem appendBytes_cksum (bs : List Byte) : (s.appendBytes bs).cksum = s.cksum := by
  induction bs generalizing s with
  | nil => rfl
  | cons b bs ih => rw [appendBytes_cons, ih]; rfl
@[simp] theorem appendBytes_stopHalves (bs : List Byte) : (s.appendBytes bs).stopHalves = s.stopHalves := by
  induction bs generalizing s with
  | nil => rfl
  | cons b bs ih => rw [appendBytes_cons, ih]; rfl
@[simp] theorem appendBytes_rev (bs : List Byte) : (s.appendBytes bs).rev = s.rev := by
  induction bs generalizing s with
  | nil => rfl
  | cons b bs ih => rw [appendBytes_cons, ih]; rfl
@[simp] theorem appendBytes_echo (bs : List Byte) : (s.appendBytes bs).echo = s.echo := by
  induction bs generalizing s with
  | nil => rfl
  | cons b bs ih => rw [appendBytes_cons, ih]; rfl
@[simp] theorem appendBytes_queue (bs : List Byte) : (s.appendBytes bs).queue = s.queue := by
  induction bs generalizing s with
  | nil => rfl
  | cons b bs ih => rw [appendBytes_cons, ih]; rfl
@[simp] theorem appendBytes_ev (bs : List Byte) : (s.appendBytes bs).ev = s.ev := by
  induction bs generalizing s with
  | nil => rfl
  | cons b bs ih => rw [appendBytes_cons, ih]; rfl
@[simp] theorem appendBytes_responses (bs : List Byte) : (s.appendBytes bs).responses = s.responses := by
  induction bs generalizing s with
  | nil => rfl
  | cons b bs ih => rw [appendBytes_cons, ih]; rfl
@[simp] theorem appendBytes_pending (bs : List Byte) : (s.appendBytes bs).pending = s.pending := by
  induction bs generalizing s with
  | nil => rfl
  | cons b bs ih => rw [appendBytes_cons, ih]; rfl
@[simp] theorem appendBytes_port (bs : List Byte) : (s.appendBytes bs).port = s.port := by
  induction bs generalizing s with
  | nil => rfl
  | cons b bs ih => rw [appendBytes_cons, ih]; rfl
@[simp] theorem appendBytes_turns (bs : List Byte) : (s.appendBytes bs).turns = s.turns := by
  induction bs generalizing s with
  | nil => rfl
  | cons b bs ih => rw [appendBytes_cons, ih]; rfl
@[simp] theorem appendBytes_msgCap (bs : List Byte) : (s.appendBytes bs).msgCap = s.msgCap := by
  induction bs generalizing s with
  | nil => rfl
  | cons b bs ih => rw [appendBytes_cons, ih]; rfl

theorem appendBytes_append (bs cs : List Byte) : s.appendBytes (bs ++ cs) = (s.appendBytes bs).appendBytes cs := by
  unfold appendBytes; exact List.foldl_append

/-- The length register counts the appended bytes, while they fit 16 bits. -/
theorem appendBytes_msgLen (bs : List Byte) (h : s.msgLen.toNat + bs.length < 65536) :
    (s.appendBytes bs).msgLen.toNat = s.msgLen.toNat + bs.length := by
  induction bs generalizing s with
  | nil => rfl
  | cons b bs ih =>
    have hb : (s.appendByte b).msgLen.toNat = s.msgLen.toNat + 1 := by
      have h1 : (1#16).toNat = 1 := rfl
      simp only [appendByte_msgLen, BitVec.toNat_add, List.length_cons] at *
      omega
    rw [appendBytes_cons, ih _ (by rw [hb]; simp only [List.length_cons] at h; omega), hb, List.length_cons]
    omega

end Sys2Proof.Machine.State
end

