-- ==== Sys2Proof/Laws/Memory.lean ====
section
/-! SUPPORT. The Message Buffer: read after write, the canonical form kept by every write, and what appending does to
the message (spec/20_memory.md R40, R41). -/

namespace Sys2Proof.Machine

/-- Reading an index after a store to it gives the stored byte. -/
@[simp] theorem memLookup_memStore_self (m : Memory) (a : Nat) (v : Byte) : memLookup (memStore m a v) a = some v := by
  induction m with
  | nil => simp [memStore, memLookup]
  | cons c m ih =>
    obtain ⟨k, w⟩ := c
    unfold memStore
    split
    · simp [memLookup]
    · split
      · simp [memLookup]
      · simp [memLookup, *]

/-- A store leaves every other index as it was. -/
theorem memLookup_memStore_ne (m : Memory) {a b : Nat} (v : Byte) (h : b ≠ a) :
    memLookup (memStore m a v) b = memLookup m b := by
  induction m with
  | nil => simp [memStore, memLookup, h]
  | cons c m ih =>
    obtain ⟨k, w⟩ := c
    unfold memStore
    split
    · simp [memLookup, h]
    · split
      · next hk => subst hk; simp [memLookup, h]
      · simp [memLookup, ih]

/-- The cells of a store are the stored one and old ones. -/
theorem mem_memStore {m : Memory} {a : Nat} {v : Byte} {c : Host.Cell} (h : c ∈ memStore m a v) :
    c = (a, v) ∨ c ∈ m := by
  induction m with
  | nil => simpa [memStore] using h
  | cons d m ih =>
    obtain ⟨k, w⟩ := d
    unfold memStore at h
    split at h
    · simpa using h
    · split at h
      · rcases List.mem_cons.mp h with h | h
        · exact .inl h
        · exact .inr (List.mem_cons_of_mem _ h)
      · rcases List.mem_cons.mp h with h | h
        · exact .inr (by simp [h])
        · exact (ih h).imp id (List.mem_cons_of_mem _)

/-- A store keeps the canonical form. -/
theorem memStore_wf {m : Memory} (h : m.wf) (a : Nat) (v : Byte) : (memStore m a v).wf := by
  induction m with
  | nil => simp [memStore, Memory.wf]
  | cons d m ih =>
    obtain ⟨k, w⟩ := d
    obtain ⟨hd, hm⟩ := List.pairwise_cons.mp h
    unfold memStore
    split
    · next hk =>
      refine List.pairwise_cons.mpr ⟨fun c hc => ?_, h⟩
      rcases List.mem_cons.mp hc with rfl | hc
      · exact hk
      · exact lt_trans hk (hd c hc)
    · split
      · next _ hk => subst hk; exact List.pairwise_cons.mpr ⟨hd, hm⟩
      · next hlt hne =>
        refine List.pairwise_cons.mpr ⟨fun c hc => ?_, ih hm⟩
        rcases mem_memStore hc with rfl | hc
        · show k < a; omega
        · exact hd c hc

/-- The empty memory, which reset leaves, is canonical. -/
theorem reset_msg_wf : State.reset.msg.wf := List.Pairwise.nil

/-- Appending a byte keeps the canonical form. -/
theorem appendByte_wf {s : State} (h : s.msg.wf) (b : Byte) : (s.appendByte b).msg.wf := memStore_wf h _ _

/-- Appending bytes keeps the canonical form. -/
theorem appendBytes_wf {s : State} (h : s.msg.wf) (bs : List Byte) : (s.appendBytes bs).msg.wf := by
  induction bs generalizing s with
  | nil => exact h
  | cons b bs ih => exact ih (appendByte_wf h b)

/-- Appending leaves every index below the length as it was. -/
theorem memLookup_appendBytes_lt (s : State) (bs : List Byte) {a : Nat} (h : s.msgLen.toNat + bs.length < 65536)
    (ha : a < s.msgLen.toNat) : memLookup (s.appendBytes bs).msg a = memLookup s.msg a := by
  induction bs generalizing s with
  | nil => rfl
  | cons b bs ih =>
    have hb : (s.appendByte b).msgLen.toNat = s.msgLen.toNat + 1 := s.appendBytes_msgLen [b] (by simp at h ⊢; omega)
    rw [State.appendBytes_cons, ih _ (by rw [hb]; simp at h; omega) (by omega)]
    exact memLookup_memStore_ne _ _ (by omega)

/-! ### A run of bytes -/

@[simp] theorem memBytes_zero (m : Memory) (a : Nat) : memBytes m a 0 = some [] := rfl

/-- A run of `n + 1` bytes is a byte and a run of `n`. -/
theorem memBytes_succ (m : Memory) (a n : Nat) (bs : List Byte) :
    memBytes m a (n + 1) = some bs ↔
      ∃ b cs, memLookup m a = some b ∧ memBytes m (a + 1) n = some cs ∧ bs = b :: cs := by
  rw [memBytes]
  cases memLookup m a <;> cases memBytes m (a + 1) n <;> simp [eq_comm]

theorem memBytes_length {m : Memory} {a n : Nat} {bs : List Byte} (h : memBytes m a n = some bs) : bs.length = n := by
  induction n generalizing a bs with
  | zero => simp at h; simp [← h]
  | succ n ih =>
    obtain ⟨b, cs, -, hcs, rfl⟩ := (memBytes_succ ..).mp h
    simp [ih hcs]

/-- Two memories that agree on a run of indices hold the same run of bytes. -/
theorem memBytes_congr {m m' : Memory} {a n : Nat} (h : ∀ i, a ≤ i → i < a + n → memLookup m' i = memLookup m i) :
    memBytes m' a n = memBytes m a n := by
  induction n generalizing a with
  | zero => rfl
  | succ n ih =>
    rw [memBytes, memBytes, h a le_rfl (by omega), ih fun i h1 h2 => h i (by omega) (by omega)]

/-- A run followed by one more byte. -/
theorem memBytes_snoc {m : Memory} {a n : Nat} {bs : List Byte} {b : Byte} (h : memBytes m a n = some bs)
    (hb : memLookup m (a + n) = some b) : memBytes m a (n + 1) = some (bs ++ [b]) := by
  induction n generalizing a bs with
  | zero => simp at h; subst h; exact (memBytes_succ ..).mpr ⟨b, [], by simpa using hb, rfl, rfl⟩
  | succ n ih =>
    obtain ⟨c, cs, hc, hcs, rfl⟩ := (memBytes_succ ..).mp h
    exact (memBytes_succ ..).mpr ⟨c, cs ++ [b], hc, ih hcs (by rw [← hb]; congr 1; omega), rfl⟩

/-- Every byte of a run holds a value. -/
theorem memBytes_isSome_iff {m : Memory} {a n : Nat} :
    (memBytes m a n).isSome = true ↔ ∀ i, a ≤ i → i < a + n → (memLookup m i).isSome = true := by
  induction n generalizing a with
  | zero => simp; omega
  | succ n ih =>
    constructor
    · intro h i h1 h2
      obtain ⟨bs, hbs⟩ := Option.isSome_iff_exists.mp h
      obtain ⟨b, cs, hb, hcs, -⟩ := (memBytes_succ ..).mp hbs
      rcases Nat.eq_or_lt_of_le h1 with rfl | h1
      · simp [hb]
      · exact ih.mp (by simp [hcs]) i h1 (by omega)
    · intro h
      obtain ⟨b, hb⟩ := Option.isSome_iff_exists.mp (h a le_rfl (by omega))
      obtain ⟨cs, hcs⟩ := Option.isSome_iff_exists.mp ((ih (a := a + 1)).mpr fun i h1 h2 => h i (by omega) (by omega))
      rw [(memBytes_succ m a n (b :: cs)).mpr ⟨b, cs, hb, hcs, rfl⟩, Option.isSome_some]

/-- The byte at an index of a run. -/
theorem memLookup_of_memBytes {m : Memory} {a n : Nat} {bs : List Byte} (h : memBytes m a n = some bs) {i : Nat}
    (hi : i < n) : memLookup m (a + i) = bs[i]? := by
  induction n generalizing a bs i with
  | zero => omega
  | succ n ih =>
    obtain ⟨b, cs, hb, hcs, rfl⟩ := (memBytes_succ ..).mp h
    cases i with
    | zero => simpa using hb
    | succ i => simpa [Nat.add_assoc, Nat.add_comm 1 i] using ih hcs (i := i) (by omega)

/-! ### The message -/

/-- A byte of the message, read as MSG.GET and the pushes read it. -/
theorem memRead_of_message {s : State} {bs : List Byte} (h : s.message = some bs) (i : Nat) : s.memRead i = bs[i]? := by
  have hl := memBytes_length h
  unfold State.memRead
  split
  · next hi => simpa using memLookup_of_memBytes h hi
  · next hi => rw [List.getElem?_eq_none (by omega)]

/-- Appending one byte to the message. -/
theorem message_appendByte {s : State} {bs : List Byte} (h : s.message = some bs) (b : Byte)
    (hr : s.msgLen.toNat + 1 < 65536) : (s.appendByte b).message = some (bs ++ [b]) := by
  have hl : (s.appendByte b).msgLen.toNat = s.msgLen.toNat + 1 := s.appendBytes_msgLen [b] (by simpa using hr)
  unfold State.message at h ⊢
  rw [hl]
  refine memBytes_snoc ?_ (by simp)
  rw [← h]
  exact memBytes_congr fun i _ hi => memLookup_memStore_ne _ _ (by omega)

/-- Appending to the message (43_message.md R128). -/
theorem message_appendBytes {s : State} {bs : List Byte} (h : s.message = some bs) (cs : List Byte)
    (hr : s.msgLen.toNat + cs.length < 65536) : (s.appendBytes cs).message = some (bs ++ cs) := by
  induction cs generalizing s bs with
  | nil => simpa using h
  | cons c cs ih =>
    have hl : (s.appendByte c).msgLen.toNat = s.msgLen.toNat + 1 :=
      s.appendBytes_msgLen [c] (by simp at hr ⊢; omega)
    rw [State.appendBytes_cons, ih (message_appendByte h c (by simp at hr; omega)) (by rw [hl]; simp at hr; omega)]
    simp

end Sys2Proof.Machine
end

