-- ==== Sys2Proof/Laws/Ops.lean ====
section
/-! SUPPORT. What the shared operations can do: one lemma for each says it once, and the proofs cite it. -/

namespace Sys2Proof.Machine

/-! ### `cfg` -/

@[simp] theorem withCfg_some {α : Type} (v : α) (n : ConfigField) (k : α → Result) : withCfg (some v) n k = k v := rfl

@[simp] theorem withCfg_none {α : Type} (n : ConfigField) (k : α → Result) :
    withCfg none n k = .fault (.cfgUnwritten n) := rfl

/-- Reading a field goes on only if the field has been written (10_state.md R23). -/
theorem withCfg_next {α : Type} {value : Option α} {n : ConfigField} {k : α → Result} {t : State}
    (h : withCfg value n k = .next t) : ∃ v, value = some v ∧ k v = .next t := by
  cases value with
  | none => simp at h
  | some v => exact ⟨v, rfl, h⟩

/-- Reading a field never refuses by itself. -/
theorem withCfg_fault {α : Type} {value : Option α} {n : ConfigField} {k : α → Result} {f : Fault}
    (h : withCfg value n k = .fault f) : (value = none ∧ f = .cfgUnwritten n) ∨ ∃ v, value = some v ∧ k v = .fault f := by
  cases value with
  | none => exact .inl ⟨rfl, by simpa using h.symm⟩
  | some v => exact .inr ⟨v, rfl, h⟩

/-! ### A byte of `MSG` -/

@[simp] theorem withByte_some (b : Byte) (k : Byte → Result) : withByte (some b) k = k b := rfl

@[simp] theorem withByte_none (k : Byte → Result) : withByte none k = .fault .msgByteUnwritten := rfl

/-- Reading a byte goes on only if it holds a value. -/
theorem withByte_next {value : Option Byte} {k : Byte → Result} {t : State} (h : withByte value k = .next t) :
    ∃ b, value = some b ∧ k b = .next t := by
  cases value with
  | none => simp at h
  | some b => exact ⟨b, rfl, h⟩

@[simp] theorem sourceByte_operand (s : State) (b : Byte) : s.sourceByte (.operand b) = some b := rfl

@[simp] theorem sourceByte_message (s : State) (j : Nat) : s.sourceByte (.message j) = s.memRead j := rfl

/-! ### Driving the line -/

/-- Reading the line and the polarity, both written (41_frame_encoder.md R90). -/
theorem withLine_of_written {s : State} {k : Byte → Flag → Result} {id : Byte} {rev : Flag} (hid : s.lineId = some id)
    (hrev : s.rev = some rev) : withLine s k = k id rev := by
  simp [withLine, hid, hrev]

/-- Reading the line and the polarity goes on only if both have been written. -/
theorem withLine_next {s t : State} {k : Byte → Flag → Result} (h : withLine s k = .next t) :
    ∃ id rev, s.lineId = some id ∧ s.rev = some rev ∧ k id rev = .next t := by
  obtain ⟨id, hid, h⟩ := withCfg_next h
  obtain ⟨rev, hrev, h⟩ := withCfg_next h
  exact ⟨id, rev, hid, hrev, h⟩

/-- With one of the two unwritten it stops, and names the first that is (assumption log 10). -/
theorem withLine_of_unwritten {s : State} {k : Byte → Flag → Result} (h : s.lineId = none ∨ s.rev = none) :
    (s.lineId = none ∧ withLine s k = .fault (.cfgUnwritten .lineId)) ∨
      (s.rev = none ∧ withLine s k = .fault (.cfgUnwritten .rev)) := by
  unfold withLine
  cases hid : s.lineId with
  | none => exact .inl ⟨rfl, rfl⟩
  | some id =>
    have hr : s.rev = none := by simpa [hid] using h
    exact .inr ⟨hr, by simp [hr]⟩

/-- Driving the line, both fields written (41_frame_encoder.md R90, 10_state.md R13). -/
theorem drive_of_written {level : Flag → Level} {s : State} {id : Byte} {rev : Flag} (hid : s.lineId = some id)
    (hrev : s.rev = some rev) : drive level s = .next (s.driveTo id (level rev)) := by
  rw [drive, withLine_of_written hid hrev]

/-- Everything driving the line can do. -/
theorem drive_next {level : Flag → Level} {s t : State} (h : drive level s = .next t) :
    ∃ id rev, s.lineId = some id ∧ s.rev = some rev ∧ t = s.driveTo id (level rev) := by
  obtain ⟨id, rev, hid, hrev, h⟩ := withLine_next h
  exact ⟨id, rev, hid, hrev, by simpa using h.symm⟩

/-- Driving the line stops on an unwritten `line_id` or `rev`, and names one that is. -/
theorem drive_of_unwritten {level : Flag → Level} {s : State} (h : s.lineId = none ∨ s.rev = none) :
    (s.lineId = none ∧ drive level s = .fault (.cfgUnwritten .lineId)) ∨
      (s.rev = none ∧ drive level s = .fault (.cfgUnwritten .rev)) := withLine_of_unwritten h

/-! ### The queue -/

/-- `pop` of a queue with a head (45_async_tx.md R157). -/
theorem pop_cons {s : State} {b : Byte} {q : List Byte} (h : s.queue = b :: q) :
    s.pop = some (b, { s with queue := q }) := by
  simp [State.pop, h]

theorem pop_nil {s : State} (h : s.queue = []) : s.pop = none := by simp [State.pop, h]

/-- The queue keeps within its capacity: "capacity is never exceeded" (45_async_tx.md R156, 10_state.md R31). -/
theorem push_qsize_le {s : State} (h : s.qsize ≤ Config.qCap) (b : Byte) : (s.push b).qsize ≤ Config.qCap := by
  rw [State.qsize, State.push_queue]
  rw [State.qsize] at h
  split
  · rw [List.length_append, List.length_singleton]; show _ ≤ 255; omega
  · exact h

/-! ### Room and augmentation -/

theorem hasRoom_iff {s : State} {n : Nat} : s.hasRoom n = true ↔ s.msgLen.toNat + n ≤ s.msgCap.toNat := by
  simp [State.hasRoom]

/-- What fits the buffer fits the 16 bits of `msg_len`. -/
theorem hasRoom_lt {s : State} {n : Nat} (h : s.hasRoom n = true) : s.msgLen.toNat + n < 65536 :=
  lt_of_le_of_lt (hasRoom_iff.mp h) s.msgCap.isLt

@[simp] theorem suffix_length (c : BitVec 16) : (suffix c).length = 5 := rfl

/-- Augmentation appends as many bytes as it asks room for (43_message.md R128). -/
@[simp] theorem augmentTail_length (mode : Flag) (bs : List Byte) : (augmentTail mode bs).length = augmentNeed mode := by
  unfold augmentTail augmentNeed
  split <;> simp

/-- In mode `NONE` the appended bytes do not depend on the message. -/
theorem augmentTail_none {mode : Flag} (h : isCrc16 mode = false) (bs : List Byte) :
    augmentTail mode bs = augmentTail mode [] := by
  simp [augmentTail, h]

/-- Augmentation of a message with room for it (43_message.md R128). -/
theorem augment_of_room {s : State} {mode : Flag} {bs : List Byte} {k : State → Result} (hm : s.cksum = some mode)
    (hr : s.hasRoom (augmentNeed mode) = true) (hb : s.message = some bs) :
    augment s k = k (s.appendBytes (augmentTail mode bs)) := by
  cases hc : isCrc16 mode with
  | true => simp [augment, hm, hr, hb, hc]
  | false => simp [augment, hm, hr, hc, augmentTail_none hc bs]

/-- Augmentation without room stops, and nothing is appended (43_message.md R128). -/
theorem augment_of_no_room {s : State} {mode : Flag} {k : State → Result} (hm : s.cksum = some mode)
    (hr : s.hasRoom (augmentNeed mode) = false) : augment s k = .fault (.msgOverflow s.msgLen) := by
  simp [augment, hm, hr]

/-- Everything augmentation can do before it goes on. -/
theorem augment_next {s t : State} {k : State → Result} (h : augment s k = .next t) :
    ∃ mode cs, s.cksum = some mode ∧ s.hasRoom cs.length = true ∧
      (∀ bs, s.message = some bs → cs = augmentTail mode bs) ∧ k (s.appendBytes cs) = .next t := by
  obtain ⟨mode, hm, h⟩ := withCfg_next h
  split at h
  · next hr =>
    cases hc : isCrc16 mode with
    | true =>
      simp only [hc, if_true] at h
      split at h
      · next bs hb =>
        exact ⟨mode, _, hm, by simpa using hr, fun cs hcs => by simp_all, h⟩
      · simp at h
    | false =>
      simp only [hc, Bool.false_eq_true, if_false] at h
      exact ⟨mode, _, hm, by simpa using hr, fun bs _ => (augmentTail_none hc bs).symm, h⟩
  · simp at h

end Sys2Proof.Machine
end

