-- ==== Sys2Proof/Laws/Exec.lean ====
section
/-! SUPPORT. What each meaning and each micro-step can do: one inversion lemma for each ("if it answers next t, then
..."), and the cases of a step. -/

namespace Sys2Proof.Machine

/-! ### The step -/

theorem step_eq_turn (s : State) : step s = turn s := rfl

/-- The TICK context's turn. -/
theorem step_tick {s : State} {ts : List Context} (h : s.turns = .tick :: ts) :
    step s = exec .tick { s with turns := ts } := by
  simp [step, turn, tickTurn, State.useTurn, h]

/-- The HOST's turn. -/
theorem step_host {s : State} {ts : List Context} (h : s.turns = .host :: ts) :
    step s = hostTurn { s with turns := ts } := by
  simp [step, turn, State.useTurn, h]

/-- Past the end of the schedule the HOST moves. -/
theorem step_unscheduled {s : State} (h : s.turns = []) : step s = hostTurn s := by
  simp [step, turn, h]

/-- The HOST runs the next micro-step of its command. -/
theorem hostTurn_micro {s : State} {m : MicroStep} {ms : List MicroStep} (h : s.pending = m :: ms) :
    hostTurn s = execMicro m (s.leave ms) := by
  simp [hostTurn, h]

/-- The HOST issues its next command word. -/
theorem hostTurn_issue {s : State} {w : Word} {ws : List Word} (hp : s.pending = []) (hw : s.port = w :: ws) :
    hostTurn s = issue w { s with port := ws } := by
  simp [hostTurn, hp, hw]

/-- With nothing to do the HOST does nothing. -/
theorem hostTurn_idle {s : State} (hp : s.pending = []) (hw : s.port = []) : hostTurn s = .next s := by
  simp [hostTurn, hp, hw]

/-- A legal word runs its instruction. -/
theorem issue_of_decode {w : Word} {i : Instr} {s : State} (h : decode w = .ok i) : issue w s = exec i s := by
  simp [issue, h]

/-- Everything the HOST's turn can do. -/
theorem hostTurn_next {s t : State} (h : hostTurn s = .next t) :
    (∃ m ms, s.pending = m :: ms ∧ execMicro m (s.leave ms) = .next t) ∨
    (∃ w ws i, s.pending = [] ∧ s.port = w :: ws ∧ decode w = .ok i ∧ exec i { s with port := ws } = .next t) ∨
    (s.pending = [] ∧ s.port = [] ∧ t = s) := by
  unfold hostTurn at h
  split at h
  · next m ms hp => exact .inl ⟨m, ms, hp, h⟩
  · next hp =>
    split at h
    · next w ws hw =>
      unfold issue at h
      split at h
      · next i hd => exact .inr (.inl ⟨w, ws, i, hp, hw, hd, h⟩)
      · simp at h
    · next hw => exact .inr (.inr ⟨hp, hw, by simpa using h.symm⟩)

/-- Everything a step can do: a tick, or a turn of the HOST, with its turn used up. -/
theorem step_next {s t : State} (h : step s = .next t) :
    (∃ ts, s.turns = .tick :: ts ∧ exec .tick { s with turns := ts } = .next t) ∨
    (∃ ts, (s.turns = .host :: ts ∨ (s.turns = [] ∧ ts = [])) ∧ hostTurn { s with turns := ts } = .next t) := by
  cases hs : s.turns with
  | nil =>
    refine .inr ⟨[], .inr ⟨rfl, rfl⟩, ?_⟩
    rw [step_unscheduled hs] at h
    rw [← h, ← hs]
  | cons c ts =>
    cases c with
    | tick => exact .inl ⟨ts, rfl, by rw [← step_tick hs]; exact h⟩
    | host => exact .inr ⟨ts, .inl rfl, by rw [← step_host hs]; exact h⟩

/-! ### The single-step commands -/

theorem execSetBaud_next {r : BitVec 24} {s t : State} (h : execSetBaud r s = .next t) :
    baudLegal r = true ∧ t = { s with timestep := some (timestepOf r) } := by
  unfold execSetBaud at h
  split at h
  · next hr => exact ⟨hr, by simpa using h.symm⟩
  · simp at h

theorem execSetStop_next {n : BitVec 3} {s t : State} (h : execSetStop n s = .next t) :
    stopLegal n = true ∧ t = { s with stopHalves := some n } := by
  unfold execSetStop at h
  split at h
  · next hn => exact ⟨hn, by simpa using h.symm⟩
  · simp at h

theorem execGetBaud_next {s t : State} (h : execGetBaud s = .next t) :
    ∃ ts, s.timestep = some ts ∧ t = s.respond (baudOf ts) := by
  obtain ⟨ts, hts, h⟩ := withCfg_next h
  exact ⟨ts, hts, by simpa using h.symm⟩

theorem execGetCksum_next {s t : State} (h : execGetCksum s = .next t) :
    ∃ f, s.cksum = some f ∧ t = s.respond (zext32 f) := by
  obtain ⟨f, hf, h⟩ := withCfg_next h
  exact ⟨f, hf, by simpa using h.symm⟩

theorem execMsgPut_next {b : Byte} {s t : State} (h : execMsgPut b s = .next t) :
    s.hasRoom 1 = true ∧ t = s.appendByte b := by
  unfold execMsgPut at h
  split at h
  · next hr => exact ⟨hr, by simpa using h.symm⟩
  · simp at h

theorem execMsgGet_next {i : BitVec 16} {s t : State} (h : execMsgGet i s = .next t) :
    i < s.msgLen ∧ ∃ b, s.memRead i.toNat = some b ∧ t = s.respond (zext32 b) := by
  unfold execMsgGet at h
  split at h
  · simp at h
  · next hi =>
    obtain ⟨b, hb, h⟩ := withByte_next h
    exact ⟨by simpa [BitVec.not_le] using hi, b, hb, by simpa using h.symm⟩

/-! ### The multi-step commands -/

theorem execTxb_next {b : Byte} {s t : State} (h : execTxb b s = .next t) :
    ∃ id rev, s.lineId = some id ∧ s.rev = some rev ∧
      t = (s.leave (txbRest (.operand b))).driveTo id (startBitLevel rev) := drive_next h

theorem execTxMsg_next {s t : State} (h : execTxMsg s = .next t) :
    ∃ mode cs, s.cksum = some mode ∧ s.hasRoom cs.length = true ∧
      (∀ bs, s.message = some bs → cs = augmentTail mode bs) ∧
      t = (s.appendBytes cs).leave (txMsgRest (s.appendBytes cs).msgLen.toNat) := by
  obtain ⟨mode, cs, hm, hr, hcs, h⟩ := augment_next h
  exact ⟨mode, cs, hm, hr, hcs, by simpa using h.symm⟩

theorem execTxAsync_next {s t : State} (h : execTxAsync s = .next t) :
    ∃ mode cs, s.cksum = some mode ∧ s.hasRoom cs.length = true ∧
      (∀ bs, s.message = some bs → cs = augmentTail mode bs) ∧
      t = (s.appendBytes cs).leave (txAsyncRest (s.appendBytes cs).msgLen.toNat) := by
  obtain ⟨mode, cs, hm, hr, hcs, h⟩ := augment_next h
  exact ⟨mode, cs, hm, hr, hcs, by simpa using h.symm⟩

/-! ### The micro-steps -/

/-- Holding a level for one bit period, the timestep written (44_sync_tx.md R136). -/
theorem microHoldBit_of_written {s : State} {ts : BitVec 32} (h : s.timestep = some ts) :
    microHoldBit s = .next ((s.emit (.delay ts.toNat)).emit (.delay ts.toNat)) := by
  rw [microHoldBit, h, withCfg_some]

theorem microHoldBit_next {s t : State} (h : microHoldBit s = .next t) :
    ∃ ts, s.timestep = some ts ∧ t = (s.emit (.delay ts.toNat)).emit (.delay ts.toNat) := by
  obtain ⟨ts, hts, h⟩ := withCfg_next h
  exact ⟨ts, hts, by simpa using h.symm⟩

/-- Driving a data bit, the line configured and the byte holding a value (44_sync_tx.md R137). -/
theorem microDriveData_of_written {source : ByteSource} {s : State} {id b : Byte} {rev : Flag} (hid : s.lineId = some id)
    (hrev : s.rev = some rev) (hb : s.sourceByte source = some b) (k : Fin 7) :
    microDriveData source k s = .next (s.driveTo id (dataBitLevel b k.val rev)) := by
  rw [microDriveData, withLine_of_written hid hrev, hb, withByte_some]

theorem microDriveData_next {source : ByteSource} {k : Fin 7} {s t : State} (h : microDriveData source k s = .next t) :
    ∃ id rev b, s.lineId = some id ∧ s.rev = some rev ∧ s.sourceByte source = some b ∧
      t = s.driveTo id (dataBitLevel b k.val rev) := by
  obtain ⟨id, rev, hid, hrev, h⟩ := withLine_next h
  obtain ⟨b, hb, h⟩ := withByte_next h
  exact ⟨id, rev, b, hid, hrev, hb, by simpa using h.symm⟩

/-- The echo, its flag written and the byte holding a value (44_sync_tx.md R137). -/
theorem microEcho_of_written {source : ByteSource} {s : State} {f : Flag} {b : Byte} (hf : s.echo = some f)
    (hb : s.sourceByte source = some b) :
    microEcho source s = .next (if isEchoOn f then s.emit (.echo b) else s) := by
  rw [microEcho, hf, withCfg_some, hb, withByte_some]
  split <;> rfl

theorem microEcho_next {source : ByteSource} {s t : State} (h : microEcho source s = .next t) :
    ∃ f, s.echo = some f ∧
      ((isEchoOn f = true ∧ ∃ b, s.sourceByte source = some b ∧ t = s.emit (.echo b)) ∨
        (isEchoOn f = false ∧ t = s)) := by
  obtain ⟨f, hf, h⟩ := withCfg_next h
  refine ⟨f, hf, ?_⟩
  cases hc : isEchoOn f with
  | true =>
    simp only [hc, if_true] at h
    obtain ⟨b, hb, h⟩ := withByte_next h
    exact .inl ⟨rfl, b, hb, by simpa using h.symm⟩
  | false =>
    simp only [hc, Bool.false_eq_true, if_false] at h
    exact .inr ⟨rfl, by simpa using h.symm⟩

/-- The stop hold, both fields written (44_sync_tx.md R137). -/
theorem microHoldStop_of_written {s : State} {sh : BitVec 3} {ts : BitVec 32} (hsh : s.stopHalves = some sh)
    (hts : s.timestep = some ts) :
    microHoldStop s = .next ((s.emit (.delay (stopDelay sh ts))).emit (.delay (stopDelay sh ts))) := by
  rw [microHoldStop, hsh, withCfg_some, hts, withCfg_some]

theorem microHoldStop_next {s t : State} (h : microHoldStop s = .next t) :
    ∃ sh ts, s.stopHalves = some sh ∧ s.timestep = some ts ∧
      t = (s.emit (.delay (stopDelay sh ts))).emit (.delay (stopDelay sh ts)) := by
  obtain ⟨sh, hsh, h⟩ := withCfg_next h
  obtain ⟨ts, hts, h⟩ := withCfg_next h
  exact ⟨sh, ts, hsh, hts, by simpa using h.symm⟩

theorem microPush_next {j : Nat} {s t : State} (h : microPush j s = .next t) :
    ∃ b, s.memRead j = some b ∧ t = s.push b := by
  obtain ⟨b, hb, h⟩ := withByte_next h
  exact ⟨b, hb, by simpa using h.symm⟩

/-! ### The TICK event -/

theorem tickStart_next {s t : State} (h : tickStart s = .next t) :
    ((s.lock = true ∨ s.queue = []) ∧ t = s) ∨
    ∃ b q id rev, s.lock = false ∧ s.queue = b :: q ∧ s.lineId = some id ∧ s.rev = some rev ∧
      t = { s with queue := q, curByte := some b, bitIdx := 0#3, phase := .sending }.driveTo id (startBitLevel rev) := by
  unfold tickStart at h
  split at h
  · next hl => exact .inl ⟨.inl hl, by simpa using h.symm⟩
  · next hl =>
    cases hq : s.queue with
    | nil => rw [pop_nil hq] at h; exact .inl ⟨.inr rfl, by simpa using h.symm⟩
    | cons b q =>
      rw [pop_cons hq] at h
      obtain ⟨id, rev, hid, hrev, ht⟩ := drive_next h
      exact .inr ⟨b, q, id, rev, by simpa using hl, rfl, hid, hrev, ht⟩

theorem tickSending_next {s t : State} (h : tickSending s = .next t) :
    ∃ id rev, s.lineId = some id ∧ s.rev = some rev ∧
      ((s.bitIdx.toNat < 7 ∧
          t = { s with bitIdx := s.bitIdx + 1#3 }.driveTo id (dataBitLevel s.readCurByte s.bitIdx.toNat rev)) ∨
        (¬ s.bitIdx.toNat < 7 ∧ t = { s with phase := .stop }.driveTo id (stopBitLevel rev))) := by
  unfold tickSending at h
  split at h
  · next hb =>
    obtain ⟨id, rev, hid, hrev, ht⟩ := drive_next h
    exact ⟨id, rev, hid, hrev, .inl ⟨hb, ht⟩⟩
  · next hb =>
    obtain ⟨id, rev, hid, hrev, ht⟩ := drive_next h
    exact ⟨id, rev, hid, hrev, .inr ⟨hb, ht⟩⟩

theorem tickStop_next {s t : State} (h : tickStop s = .next t) :
    ∃ sh, s.stopHalves = some sh ∧
      ((isTwoStopBits sh = true ∧ ∃ id rev, s.lineId = some id ∧ s.rev = some rev ∧
          t = { s with phase := .start }.driveTo id (stopBitLevel rev)) ∨
        (isTwoStopBits sh = false ∧ t = { s with phase := .start })) := by
  obtain ⟨sh, hsh, h⟩ := withCfg_next h
  refine ⟨sh, hsh, ?_⟩
  cases hc : isTwoStopBits sh with
  | true =>
    simp only [hc, if_true] at h
    obtain ⟨id, rev, hid, hrev, ht⟩ := drive_next h
    exact .inl ⟨rfl, id, rev, hid, hrev, ht⟩
  | false =>
    simp only [hc, Bool.false_eq_true, if_false] at h
    exact .inr ⟨rfl, by simpa using h.symm⟩

/-- Everything a TICK can do: one rule, by the phase (45_async_tx.md R160). -/
theorem execTick_next {s t : State} (h : execTick s = .next t) :
    (s.phase = .start ∧ tickStart s = .next t) ∨ (s.phase = .sending ∧ tickSending s = .next t) ∨
      (s.phase = .stop ∧ tickStop s = .next t) := by
  unfold execTick at h
  split at h <;> simp_all

end Sys2Proof.Machine
end

