-- ==== Sys2Proof/Laws/Operands.lean ====
section
/-! SUPPORT. The operand arithmetic and the flag tests as facts about numbers (spec/42_config.md R103 to R110,
spec/43_message.md R125). -/

namespace Sys2Proof.Machine

/-- The quotient, where it is defined (00_scope.md R9). -/
theorem floorDiv_of_pos (a : Nat) {b : Nat} (h : 1 ≤ b) : floorDiv a b = a / b := by
  unfold floorDiv
  rw [if_neg (by omega)]

/-- The legal rates of SETBAUD (42_config.md R104). -/
theorem baudLegal_iff (r : BitVec 24) : baudLegal r = true ↔ 1 ≤ r.toNat ∧ r.toNat ≤ 500000 := by
  simp [baudLegal, Config.baudMin, Config.baudMax]

/-- The timestep of a legal rate, as a number (42_config.md R103). -/
theorem timestepOf_toNat {r : BitVec 24} (h : 1 ≤ r.toNat) : (timestepOf r).toNat = 500000 / r.toNat := by
  have hle : 500000 / r.toNat ≤ 500000 := Nat.div_le_self _ _
  have hmod : 500000 / r.toNat % 2 ^ 32 = 500000 / r.toNat := Nat.mod_eq_of_lt (by omega)
  rw [timestepOf, floorDiv_of_pos _ h, BitVec.toNat_ofNat, hmod]

/-- The timestep of a legal rate lies in 1 to 500000 (10_state.md R22, R31). -/
theorem timestepOf_range {r : BitVec 24} (h : baudLegal r = true) :
    1 ≤ (timestepOf r).toNat ∧ (timestepOf r).toNat ≤ 500000 := by
  obtain ⟨h1, h2⟩ := (baudLegal_iff r).mp h
  rw [timestepOf_toNat h1]
  exact ⟨(Nat.le_div_iff_mul_le h1).mpr (by omega), Nat.div_le_self _ _⟩

/-- The legal stop-bit counts of SETSTOP (42_config.md R110). -/
theorem stopLegal_iff (h : BitVec 3) : stopLegal h = true ↔ h = 2#3 ∨ h = 3#3 ∨ h = 4#3 := by
  simp [stopLegal, or_assoc]

theorem isCrc16_iff (f : Flag) : isCrc16 f = true ↔ f = 1#1 := by simp [isCrc16]

theorem isEchoOn_iff (f : Flag) : isEchoOn f = true ↔ f = 1#1 := by simp [isEchoOn]

theorem isTwoStopBits_iff (sh : BitVec 3) : isTwoStopBits sh = true ↔ sh = 4#3 := by simp [isTwoStopBits]

end Sys2Proof.Machine
end

