-- ==== Sys2Proof/Laws/PerInstr.lean ====
section
/-! SUPPORT. The family TableWord: the word the encoder gives an instruction is one of its own row of the opcode map
(spec/30_encoding.md R64), one lemma for each instruction. -/

namespace Sys2Proof.Laws.TableWord

/-- Row `r` of the opcode map, and no other, covers the word of `i`; an instruction without a word has none to cover. -/
def Statement (i : Instr) : Prop :=
  ∀ w, encode i = some w → ∃ r ∈ opcodeMap, r.covers w ∧ r.op = opcodeField w

/-- The word `op << 24 | v` is covered by its row. -/
theorem covers_or {n : Nat} {r : OpcodeRow} {op : Word} (v : BitVec n) (hn : n ≤ 24)
    (hop : op &&& r.mask = r.value) (hv : r.mask.extractLsb' 0 n = 0#n) (ho : r.op = opcodeField op) :
    r.covers (op ||| v.setWidth 32) ∧ r.op = opcodeField (op ||| v.setWidth 32) := by
  refine ⟨?_, by rw [opcodeField_or hn]; exact ho⟩
  have h : (op ||| v.setWidth 32) &&& r.mask = op &&& r.mask := by
    have hz := setWidth_and_eq_zero v r.mask hv
    ext i hi
    have hb := congrArg (fun x => x[i]) hz
    simp only [BitVec.getElem_and, BitVec.getElem_or, BitVec.getElem_zero] at hb ⊢
    rw [Bool.and_or_distrib_right, hb, Bool.or_false]
  rw [OpcodeRow.covers, h, hop]

theorem crcInit : Statement .crcInit := by
  rintro w ⟨⟩
  exact ⟨⟨"CRC.INIT", 0x10#8, .N⟩, by decide, by decide, by decide⟩

theorem crcUpd (v) : Statement (.crcUpd v) := by
  rintro w ⟨⟩
  exact ⟨⟨"CRC.UPD", 0x11#8, .B⟩, by decide, covers_or v (by decide) (by decide) (by decide) (by decide)⟩

theorem crcRd : Statement .crcRd := by
  rintro w ⟨⟩
  exact ⟨⟨"CRC.RD", 0x12#8, .N⟩, by decide, by decide, by decide⟩

theorem setLine (v) : Statement (.setLine v) := by
  rintro w ⟨⟩
  exact ⟨⟨"SETLINE", 0x20#8, .B⟩, by decide, covers_or v (by decide) (by decide) (by decide) (by decide)⟩

theorem setBaud (v) : Statement (.setBaud v) := by
  rintro w ⟨⟩
  exact ⟨⟨"SETBAUD", 0x21#8, .R⟩, by decide, covers_or v (by decide) (by decide) (by decide) (by decide)⟩

theorem getBaud : Statement .getBaud := by
  rintro w ⟨⟩
  exact ⟨⟨"GETBAUD", 0x22#8, .N⟩, by decide, by decide, by decide⟩

theorem setCksum (v) : Statement (.setCksum v) := by
  rintro w ⟨⟩
  exact ⟨⟨"SETCKSUM", 0x23#8, .F⟩, by decide, covers_or v (by decide) (by decide) (by decide) (by decide)⟩

theorem getCksum : Statement .getCksum := by
  rintro w ⟨⟩
  exact ⟨⟨"GETCKSUM", 0x24#8, .N⟩, by decide, by decide, by decide⟩

theorem setStop (v) : Statement (.setStop v) := by
  rintro w ⟨⟩
  exact ⟨⟨"SETSTOP", 0x25#8, .H⟩, by decide, covers_or v (by decide) (by decide) (by decide) (by decide)⟩

theorem setRev (v) : Statement (.setRev v) := by
  rintro w ⟨⟩
  exact ⟨⟨"SETREV", 0x26#8, .F⟩, by decide, covers_or v (by decide) (by decide) (by decide) (by decide)⟩

theorem setEcho (v) : Statement (.setEcho v) := by
  rintro w ⟨⟩
  exact ⟨⟨"SETECHO", 0x27#8, .F⟩, by decide, covers_or v (by decide) (by decide) (by decide) (by decide)⟩

theorem msgClr : Statement .msgClr := by
  rintro w ⟨⟩
  exact ⟨⟨"MSG.CLR", 0x30#8, .N⟩, by decide, by decide, by decide⟩

theorem msgPut (v) : Statement (.msgPut v) := by
  rintro w ⟨⟩
  exact ⟨⟨"MSG.PUT", 0x31#8, .B⟩, by decide, covers_or v (by decide) (by decide) (by decide) (by decide)⟩

theorem msgLen : Statement .msgLen := by
  rintro w ⟨⟩
  exact ⟨⟨"MSG.LEN", 0x32#8, .N⟩, by decide, by decide, by decide⟩

theorem msgGet (v) : Statement (.msgGet v) := by
  rintro w ⟨⟩
  exact ⟨⟨"MSG.GET", 0x33#8, .I⟩, by decide, covers_or v (by decide) (by decide) (by decide) (by decide)⟩

theorem txb (v) : Statement (.txb v) := by
  rintro w ⟨⟩
  exact ⟨⟨"TXB", 0x40#8, .B⟩, by decide, covers_or v (by decide) (by decide) (by decide) (by decide)⟩

theorem txMsg : Statement .txMsg := by
  rintro w ⟨⟩
  exact ⟨⟨"TXMSG", 0x41#8, .N⟩, by decide, by decide, by decide⟩

theorem txAsync : Statement .txAsync := by
  rintro w ⟨⟩
  exact ⟨⟨"TXASYNC", 0x50#8, .N⟩, by decide, by decide, by decide⟩

theorem bufSz : Statement .bufSz := by
  rintro w ⟨⟩
  exact ⟨⟨"BUFSZ", 0x51#8, .N⟩, by decide, by decide, by decide⟩

theorem tick : Statement .tick := nofun

end Sys2Proof.Laws.TableWord
end

