-- ==== Sys2Proof/Laws/Run.lean ====
section
/-! SUPPORT. Runs of several steps: none, one more, and one run after another. -/

namespace Sys2Proof.Machine

@[simp] theorem run_zero (s : State) : run 0 s = .next s := rfl

/-- The host's run of `n + 1` steps, by its first step. -/
theorem core_run_succ (M : Host.Core) (n : Nat) (s : M.State) :
    (∀ t, M.step s = .next t → M.run (n + 1) s = M.run n t) ∧
    (∀ t, M.run (n + 1) s = .next t → ∃ u, M.step s = .next u ∧ M.run n u = .next t) := by
  rw [Host.Core.run]
  cases hs : M.step s with
  | next u => exact ⟨fun t h => by (cases h; rfl), fun t h => ⟨u, rfl, h⟩⟩
  | fault f => exact ⟨nofun, nofun⟩
  | refused r => exact ⟨nofun, nofun⟩

/-- A run of `n + 1` steps is a step and a run of `n`. -/
theorem run_succ_of_step {s t : State} (n : Nat) (h : step s = .next t) : run (n + 1) s = run n t :=
  (core_run_succ Sys2Proof.core n s).1 t h

/-- A run whose first step is a micro-step of the command in progress. -/
theorem run_succ_of_micro {s t : State} {m : MicroStep} {ms : List MicroStep} {ts : List Context} (n : Nat)
    (hp : s.pending = m :: ms) (ht : s.turns = .host :: ts)
    (h : execMicro m { s with pending := ms, turns := ts } = .next t) : run (n + 1) s = run n t :=
  run_succ_of_step n (by rw [step_host ht, hostTurn_micro (by exact hp)]; exact h)

/-- The first step of a run that answers a next state. -/
theorem run_succ_next {s t : State} {n : Nat} (h : run (n + 1) s = .next t) :
    ∃ u, step s = .next u ∧ run n u = .next t :=
  (core_run_succ Sys2Proof.core n s).2 t h

/-- A run after a run. -/
theorem run_add {s t : State} {m : Nat} (n : Nat) (h : run m s = .next t) : run (m + n) s = run n t := by
  induction m generalizing s with
  | zero => cases h; rw [Nat.zero_add]
  | succ m ih =>
    obtain ⟨u, hu, h⟩ := run_succ_next h
    rw [Nat.succ_add, run_succ_of_step _ hu, ih h]

/-- A property that every step keeps, every run keeps. -/
theorem run_keeps {P : State → Prop} (hstep : ∀ s t, P s → step s = .next t → P t) {n : Nat} {s t : State}
    (hs : P s) (h : run n s = .next t) : P t := by
  induction n generalizing s with
  | zero => cases h; exact hs
  | succ n ih =>
    obtain ⟨u, hu, h⟩ := run_succ_next h
    exact ih (hstep s u hs hu) h

end Sys2Proof.Machine
end

