-- ==== Sys2Proof/Tests/Slice0.lean ====
section
/-! SUPPORT. The model's own tests, with expected results from spec/95_test_vectors.md, spec/30_encoding.md and the
examples of the rules; and, for every statement that has hypotheses, a witness that meets them together. -/

namespace Sys2Proof.Tests

open Sys2Proof.Machine

/-! ### Helpers -/

/-- The next state, if there is one. -/
def nextOf : Result → Option State
  | .next s => some s
  | .fault _ => none
  | .refused _ => none

/-- The fault, if there is one. -/
def faultOf : Result → Option Fault
  | .next _ => none
  | .fault f => some f
  | .refused _ => none

/-- The refusal, if there is one. -/
def refusalOf : Result → Option Refusal
  | .next _ => none
  | .fault _ => none
  | .refused r => some r

/-- After reset with every configuration field written: line 5, 50 baud, CRC16, 1.5 stop bits, normal keying, echo. -/
def configured : State :=
  { State.reset with
    lineId := some 5#8, timestep := some 10000#32, cksum := some 1#1, stopHalves := some 3#3, rev := some 0#1,
    echo := some 1#1 }

/-- The text "TEST" in the Message Buffer (95_test_vectors.md V-AUG-1). -/
def holdsTest : State :=
  { configured with msg := [(0, 0x54#8), (1, 0x45#8), (2, 0x53#8), (3, 0x54#8)], msgLen := 4#16 }

/-- One byte, 0x55, in the queue (95_test_vectors.md V-ASY-1). -/
def queued : State := { configured with queue := [0x55#8] }

/-- Inside a TXASYNC of the one byte 0x41, the lock held, its push and its unlock to run. -/
def pushing : State :=
  { configured with
    msg := [(0, 0x41#8)], msgLen := 1#16, lock := true, pending := [.push 0, .clearLock], queue := [0x55#8] }

/-! ### WellFormed: the one check, and a term that fails it (30_encoding.md R67) -/

theorem test_wellFormed_refuses_tick : ¬ WellFormed .tick := by decide
theorem test_wellFormed_admits_illegal_operand : WellFormed (.setStop 5#3) := by decide
theorem test_encode_tick : encode .tick = none := by decide

/-! ### Decode: words written out from 30_encoding.md R61 and R64 -/

theorem test_decode_crcInit : decode 0b00010000000000000000000000000000#32 = .ok .crcInit := by decide
theorem test_decode_crcUpd : decode 0b00010001000000000000000010000001#32 = .ok (.crcUpd 0b10000001#8) := by decide
theorem test_decode_crcRd : decode 0b00010010000000000000000000000000#32 = .ok .crcRd := by decide
theorem test_decode_setLine : decode 0b00100000000000000000000000001101#32 = .ok (.setLine 13#8) := by decide
theorem test_decode_setBaud :
    decode 0b00100001111111111111111111111110#32 = .ok (.setBaud 0b111111111111111111111110#24) := by decide
theorem test_decode_getBaud : decode 0b00100010000000000000000000000000#32 = .ok .getBaud := by decide
theorem test_decode_setCksum : decode 0b00100011000000000000000000000001#32 = .ok (.setCksum 1#1) := by decide
theorem test_decode_getCksum : decode 0b00100100000000000000000000000000#32 = .ok .getCksum := by decide
theorem test_decode_setStop : decode 0b00100101000000000000000000000100#32 = .ok (.setStop 4#3) := by decide
theorem test_decode_setRev : decode 0b00100110000000000000000000000000#32 = .ok (.setRev 0#1) := by decide
theorem test_decode_setEcho : decode 0b00100111000000000000000000000001#32 = .ok (.setEcho 1#1) := by decide
theorem test_decode_msgClr : decode 0b00110000000000000000000000000000#32 = .ok .msgClr := by decide
theorem test_decode_msgPut : decode 0b00110001000000000000000001001011#32 = .ok (.msgPut 0x4B#8) := by decide
theorem test_decode_msgLen : decode 0b00110010000000000000000000000000#32 = .ok .msgLen := by decide
theorem test_decode_msgGet :
    decode 0b00110011000000001000000000000001#32 = .ok (.msgGet 0b1000000000000001#16) := by decide
theorem test_decode_txb : decode 0b01000000000000000000000011000001#32 = .ok (.txb 0xC1#8) := by decide
theorem test_decode_txMsg : decode 0b01000001000000000000000000000000#32 = .ok .txMsg := by decide
theorem test_decode_txAsync : decode 0b01010000000000000000000000000000#32 = .ok .txAsync := by decide
theorem test_decode_bufSz : decode 0b01010001000000000000000000000000#32 = .ok .bufSz := by decide
/-- V-ENC-1, V-ENC-2 -/
theorem test_decode_unknown : (decode 0x00000000#32, decode 0x52000000#32) =
    (.illegal (.unknownOpcode 0x00#8), .illegal (.unknownOpcode 0x52#8)) := by decide
/-- V-ENC-3, V-ENC-4, V-ENC-5 -/
theorem test_decode_mustBeZero_NBF : (decode 0x10000001#32, decode 0x11000141#32, decode 0x23000002#32) =
    (.illegal (.mustBeZeroBit 0x10#8), .illegal (.mustBeZeroBit 0x11#8), .illegal (.mustBeZeroBit 0x23#8)) := by decide
/-- V-ENC-6, V-ENC-7 -/
theorem test_decode_mustBeZero_HI : (decode 0x25000008#32, decode 0x33010000#32) =
    (.illegal (.mustBeZeroBit 0x25#8), .illegal (.mustBeZeroBit 0x33#8)) := by decide
theorem test_decodeTableWord : decodeTableWord 32 0x21000032 = some (.setBaud 50#24) := by decide
theorem test_fetch_illegal :
    refusalOf (step (State.reset.withFetchWord 32 0x13000000)) = some (.illegalCommand 0x13000000#32) := by decide

/-! ### The Checksum Engine (95_test_vectors.md 2.1) -/

/-- V-CRC-2 -/
theorem test_crc16_check : crc16 [0x31#8, 0x32#8, 0x33#8, 0x34#8, 0x35#8, 0x36#8, 0x37#8, 0x38#8, 0x39#8] = 0x29B1#16 := by
  decide +kernel
/-- V-UPD-11 and V-UPD-12, both forms -/
theorem test_crc16Update : (crc16Update 0x1234#16 0x56#8, crc16UpdateFold 0xFFFF#16 0x54#8) = (0x3C40#16, 0xFB81#16) := by
  decide
theorem test_crcInit : (nextOf (exec .crcInit { State.reset with crc := 0x1234#16 })).map (·.crc) = some 0xFFFF#16 := by
  decide
/-- V-CRC-3, run as the first instruction after reset -/
theorem test_crcUpd : (nextOf (step (State.reset.withFetchWord 32 0x11000041))).map (·.crc) = some 0xB915#16 := by decide
theorem test_crcRd : (nextOf (step (State.reset.withFetchWord 32 0x12000000))).map (·.responses) =
    some [0x0000FFFF#32] := by decide

/-! ### The Line Configuration (95_test_vectors.md 2.3) -/

/-- V-CFG-18 -/
theorem test_setLine : (nextOf (exec (.setLine 7#8) { configured with ev := [.lineMode 13#8] })).map
    (fun s => (s.lineId, s.ev)) = some (some 7#8, [.lineMode 13#8, .lineMode 7#8]) := by decide
/-- V-CFG-1 -/
theorem test_setBaud : (nextOf (exec (.setBaud 45#24) State.reset)).map (·.timestep) = some (some 11111#32) := by decide
/-- V-CFG-9, V-CFG-10 -/
theorem test_setBaud_range : (faultOf (exec (.setBaud 0#24) State.reset), faultOf (exec (.setBaud 500001#24) State.reset)) =
    (some (.baudRange 0#24), some (.baudRange 500001#24)) := by decide
/-- V-CFG-3: 499999 comes back as 500000 -/
theorem test_getBaud : (nextOf (exec .getBaud { State.reset with timestep := some 1#32 })).map (·.responses) =
    some [500000#32] := by decide
/-- V-CFG-12, V-CFG-16 -/
theorem test_getters_unwritten : (faultOf (exec .getBaud State.reset), faultOf (exec .getCksum State.reset)) =
    (some (.cfgUnwritten .timestep), some (.cfgUnwritten .cksum)) := by decide
/-- V-CFG-15 -/
theorem test_getCksum : (nextOf (exec .getCksum configured)).map (·.responses) = some [1#32] := by decide
theorem test_setCksum : (nextOf (exec (.setCksum 0#1) configured)).map (·.cksum) = some (some 0#1) := by decide
/-- V-CFG-13, V-CFG-14 -/
theorem test_setStop : ((nextOf (exec (.setStop 4#3) State.reset)).map (·.stopHalves), refusalOf (exec (.setStop 5#3) State.reset)) =
    (some (some 4#3), some (.stopRange 5#3)) := by decide
/-- V-CFG-19 -/
theorem test_setRev : (nextOf (exec (.setRev 1#1) configured)).map (fun s => (s.rev, s.echo, s.ev)) =
    some (some 1#1, some 1#1, []) := by decide
theorem test_setEcho : (nextOf (exec (.setEcho 0#1) configured)).map (fun s => (s.echo, s.rev)) =
    some (some 0#1, some 0#1) := by decide

/-! ### The Message Buffer (95_test_vectors.md 2.4) -/

/-- V-MSG-6 -/
theorem test_msgClr : (nextOf (exec .msgClr holdsTest)).map (fun s => (s.msgLen, s.memRead 0)) = some (0#16, none) := by
  decide
/-- V-MSG-5 -/
theorem test_msgPut_full : refusalOf (exec (.msgPut 0x41#8) { holdsTest with msgCap := 4#16 }) =
    some (.msgOverflow 4#16) := by decide
/-- V-MSG-2 -/
theorem test_msgPut : (nextOf (exec (.msgPut 0x69#8) { State.reset with msg := [(0, 0x48#8)], msgLen := 1#16 })).map
    (·.message) = some (some [0x48#8, 0x69#8]) := by decide
theorem test_msgLen : (nextOf (exec .msgLen holdsTest)).map (·.responses) = some [4#32] := by decide
/-- V-MSG-3 -/
theorem test_msgGet : ((nextOf (exec (.msgGet 1#16) holdsTest)).map (·.responses), refusalOf (exec (.msgGet 4#16) holdsTest)) =
    (some [0x45#32], some (.msgIndex 4#16)) := by decide
/-- V-AUG-1, V-AUG-11: the augmentation of TXASYNC, just fitting -/
theorem test_augment_crc : (nextOf (exec .txAsync { holdsTest with msgCap := 10#16 })).map (·.message) =
    some (some [0x54#8, 0x45#8, 0x53#8, 0x54#8, 0x2A#8, 0x38#8, 0x43#8, 0x43#8, 0x41#8, 0x0A#8]) := by decide +kernel
/-- V-AUG-10, V-AUG-13 -/
theorem test_augment_stops : (faultOf (exec .txMsg { holdsTest with msgCap := 9#16 }),
    faultOf (exec .txMsg { holdsTest with cksum := none })) =
    (some (.msgOverflow 4#16), some (.cfgUnwritten .cksum)) := by decide
/-- V-AUG-5: the leading zero is kept -/
theorem test_suffix_leading_zero : suffix 0x045D#16 = [0x2A#8, 0x30#8, 0x34#8, 0x35#8, 0x44#8] := by decide

/-! ### The transmitters (95_test_vectors.md 2.2, 2.5, 2.6) -/

/-- V-FRM-2, V-FRM-4 -/
theorem test_frameLevels : (frameLevels 0x4B#8 0#1, frameLevels 0x55#8 1#1) =
    ([0#1, 1#1, 1#1, 0#1, 1#1, 0#1, 0#1, 1#1, 1#1], [1#1, 0#1, 1#1, 0#1, 1#1, 0#1, 1#1, 0#1, 0#1]) := by decide
theorem test_txb : (nextOf (exec (.txb 0x55#8) configured)).map (fun s => (s.ev, s.pending.length)) =
    some ([.lineSet 5#8 0#1], 18) := by decide
/-- V-SYN-2 and V-SYN-6: the echo and the stop hold of 1.5 stop bits at 50 baud -/
theorem test_txb_last_micro_steps : (nextOf (run 3 { configured with pending := [.echo (.operand 0xC1#8), .driveStop, .holdStop] })).map
    (·.ev) = some [.echo 0xC1#8, .lineSet 5#8 1#1, .delay 15000, .delay 15000] := by decide
/-- 44_sync_tx.md R140's example: two frames to send -/
theorem test_txMsg : (nextOf (exec .txMsg { configured with
      cksum := some 0#1, msg := [(0, 0x4B#8)], msgLen := 1#16 })).map (fun s => (s.message, s.pending.length)) =
    some (some [0x4B#8, 0x0A#8], 38) := by decide
/-- 45_async_tx.md R152's example: six micro-steps in all -/
theorem test_txAsync : (nextOf (exec .txAsync { configured with
      cksum := some 0#1, msg := [(0, 0x48#8), (1, 0x69#8)], msgLen := 2#16 })).map (·.pending) =
    some [.setLock, .push 0, .push 1, .push 2, .clearLock] := by decide
/-- V-ASY-11 -/
theorem test_bufSz : (nextOf (exec .bufSz { queued with queue := [1#8, 2#8, 3#8] })).map (·.responses) = some [3#32] := by
  decide
/-- V-ASY-1, first tick -/
theorem test_tick_start : (nextOf (exec .tick queued)).map (fun s => (s.curByte, s.bitIdx, s.queue, s.ev)) =
    some (some 0x55#8, 0#3, [], [.lineSet 5#8 0#1]) := by decide
/-- V-ASY-9: no pop, since the tick stops -/
theorem test_tick_unconfigured : faultOf (exec .tick { State.reset with queue := [0x41#8] }) =
    some (.cfgUnwritten .lineId) := by decide

/-- 44_sync_tx.md R140, TXB `MSG[j]`: data bit 0 of 0x4B, read from the buffer when it is driven -/
theorem test_txMsg_data_bit : (nextOf (execMicro (.driveData (.message 0) 0) { configured with
      msg := [(0, 0x4B#8)], msgLen := 1#16 })).map (·.ev) = some [.lineSet 5#8 1#1] := by decide
/-- As V-SYN-9: micro-step 2 of TXB raises `CfgUnwritten(timestep)`, after micro-step 1 has taken effect -/
theorem test_txb_unconfigured :
    faultOf (run 2 ({ configured with timestep := none }.withFetchWord 32 0x40000041)) = some (.cfgUnwritten .timestep) := by
  decide

/-! ### Witnesses: for each statement with hypotheses, a state that meets them together -/

theorem witness_TickBeforeAnyTxAsyncIsANoOp : (∀ w ∈ [0x10000000#32], w ≠ 0x50000000#32) ∧
    ∃ s, run 2 { State.reset with msgCap := 9#16, port := [0x10000000#32], turns := [.tick, .host] } = .next s :=
  ⟨by simp, _, rfl⟩
theorem witness_StepRunsTheDecodedCommand : ∃ (s : State) (i : Instr), s.pending = [] ∧ s.port = [0x11000041#32] ∧
    decode 0x11000041#32 = .ok i ∧ s.turns = [.host] :=
  ⟨{ State.reset with port := [0x11000041#32], turns := [.host] }, .crcUpd 0x41#8, rfl, rfl, by decide, rfl⟩
theorem witness_StepRunsTheDecodedCommand_unscheduled : ∃ (s : State) (i : Instr), s.pending = [] ∧
    s.port = [0x11000041#32] ∧ decode 0x11000041#32 = .ok i ∧ s.turns = [] :=
  ⟨{ State.reset with port := [0x11000041#32] }, .crcUpd 0x41#8, rfl, rfl, by decide, rfl⟩
theorem witness_StepFollowsTheSchedule_tick : ({ pushing with turns := [.tick, .host] } : State).turns = [.tick, .host] := rfl
theorem witness_StepFollowsTheSchedule_micro : pushing.pending = [.push 0, .clearLock] ∧ pushing.turns = [] ∧
    ({ pushing with turns := [.host] } : State).turns = [.host] := ⟨rfl, rfl, rfl⟩
theorem witness_StepFollowsTheSchedule_idle : State.reset.pending = [] ∧ State.reset.port = [] ∧ State.reset.turns = [] ∧
    ({ State.reset with turns := [.host] } : State).turns = [.host] := ⟨rfl, rfl, rfl, rfl⟩
theorem witness_IllegalWordsAreRefused : ∃ why, decode 0xFF000000#32 = .illegal why := ⟨.unknownOpcode 0xFF#8, by decide⟩
theorem witness_IllegalWordsAreRefused_step : ∃ s : State, (∃ why, decode 0x10000001#32 = .illegal why) ∧
    s.pending = [] ∧ s.port = [0x10000001#32] ∧ s.turns = [.host] :=
  ⟨{ State.reset with port := [0x10000001#32], turns := [.host] }, ⟨.mustBeZeroBit 0x10#8, by decide⟩, rfl, rfl, rfl⟩
theorem witness_OpcodeRowsCoverTheLegalWordsOnce : ∃ r ∈ opcodeMap, 0x21000032#32 &&& r.mask = r.value :=
  ⟨⟨"SETBAUD", 0x21#8, .R⟩, by decide, by decide⟩
theorem witness_DecodeOfEncode : WellFormed (.setBaud 0xFFFFFF#24) := by decide
theorem witness_EncodeOfDecode : decode 0x25000007#32 = .ok (.setStop 7#3) := by decide
theorem witness_CrcInitLoadsTheInitialValue : (0x800000#24 : BitVec 24) ≠ 0#24 := by decide
theorem witness_CrcUpdTakesOneByte : State.reset.crc = 0xFFFF#16 := rfl
theorem witness_ZeroByteChangesEveryNonzeroCrc : ∃ t, State.reset.crc ≠ 0x0000#16 ∧
    exec (.crcUpd 0x00#8) State.reset = .next t := ⟨_, by decide, rfl⟩
theorem witness_OnlyTheChecksumCommandsTouchTheCrc : ∃ t, Instr.tick ≠ .crcInit ∧ (∀ b, Instr.tick ≠ .crcUpd b) ∧
    Instr.tick ≠ .crcRd ∧ exec .tick queued = .next t := ⟨_, nofun, nofun, nofun, rfl⟩
theorem witness_OnlyTheChecksumCommandsTouchTheCrc_micro : ∃ t, execMicro .holdStop configured = .next t := ⟨_, rfl⟩
theorem witness_ComputeCrc16AnswersTheCrcOfTheBytes : ∃ s : State, s.pending = [] ∧
    s.turns = List.replicate ([0x54#8, 0x45#8].length + 2) .host ++ [.tick] ∧
    s.port = [0x10000000#32] ++ [0x54#8, 0x45#8].map (fun b => 0x11000000#32 ||| b.setWidth 32) ++ [0x12000000#32] ++
      [0x41000000#32] :=
  ⟨{ State.reset with
      port := [0x10000000#32, 0x11000054#32, 0x11000045#32, 0x12000000#32, 0x41000000#32],
      turns := List.replicate 4 .host ++ [.tick] }, rfl, rfl, by decide⟩
theorem witness_TickTracesOfOppositePolarityAreComplements : ∃ (s t : State),
    s.turns = List.replicate 2 .tick ++ [.host] ∧ run 2 { s with rev := some 0#1 } = .next t :=
  ⟨{ queued with turns := [.tick, .tick, .host] }, _, rfl, rfl⟩
theorem witness_SetBaudStoresTheHalfBit : 1 ≤ (1#24).toNat ∧ (500000#24).toNat ≤ 500000 ∧ (0#24).toNat = 0 ∧
    500000 < (500001#24).toNat := by decide
theorem witness_GetBaudReturnsTheInverse : configured.timestep = some 10000#32 ∧ 1 ≤ (10000#32).toNat ∧
    State.reset.timestep = none ∧ ({ configured with timestep := some 0#32 } : State).timestep = some 0#32 ∧
    (0#32).toNat = 0 := by decide
theorem witness_BaudRoundTripIsLossyUpwards : 1 ≤ (250001#24).toNat ∧ (500000#24).toNat ≤ 500000 ∧
    (45#24).toNat ∈ [45, 50, 75, 100, 110, 150, 300, 250000] ∧ 250001 ≤ (250001#24).toNat := by decide
theorem witness_GetCksumReturnsTheMode : configured.cksum = some 1#1 ∧ State.reset.cksum = none := by decide
theorem witness_SetStopAcceptsTwoThreeFour : (2#3).toNat = 2 ∧ (3#3).toNat = 3 ∧ (4#3).toNat = 4 ∧
    ¬((1#3).toNat = 2 ∨ (1#3).toNat = 3 ∨ (1#3).toNat = 4) ∧ ¬((5#3).toNat = 2 ∨ (5#3).toNat = 3 ∨ (5#3).toNat = 4) := by
  decide
theorem witness_ConfigCommandsLeaveTheRestAlone : ∃ t, (Instr.setRev 1#1).isConfig = true ∧
    exec (.setRev 1#1) pushing = .next t ∧ ∀ b, Instr.setRev 1#1 ≠ .setLine b := ⟨_, rfl, rfl, nofun⟩
theorem witness_MsgPutAppendsOneByte : holdsTest.msgLen.toNat < holdsTest.msgCap.toNat ∧
    ({ holdsTest with msgCap := 5#16 } : State).msgLen.toNat < ({ holdsTest with msgCap := 5#16 } : State).msgCap.toNat ∧
    ({ holdsTest with msgCap := 4#16 } : State).msgCap.toNat ≤ ({ holdsTest with msgCap := 4#16 } : State).msgLen.toNat := by
  decide
theorem witness_MsgGetReturnsTheByte : holdsTest.memRead (3#16).toNat = some 0x54#8 ∧
    holdsTest.msgLen.toNat ≤ (4#16).toNat ∧
    (0#16).toNat < ({ State.reset with msgLen := 1#16 } : State).msgLen.toNat ∧
    memLookup ({ State.reset with msgLen := 1#16 } : State).msg (0#16).toNat = none := by decide
theorem witness_TxMsgAugmentsAndStarts : holdsTest.cksum = some 1#1 ∧
    holdsTest.message = some [0x54#8, 0x45#8, 0x53#8, 0x54#8] ∧
    holdsTest.msgLen.toNat + 6 ≤ ({ holdsTest with msgCap := 10#16 } : State).msgCap.toNat := by decide
theorem witness_TxAsyncAugmentsAndStarts : ({ holdsTest with cksum := some 0#1 } : State).cksum = some 0#1 ∧
    ({ holdsTest with cksum := some 0#1 } : State).message = some [0x54#8, 0x45#8, 0x53#8, 0x54#8] ∧
    holdsTest.msgLen.toNat + 1 ≤ holdsTest.msgCap.toNat := by decide
theorem witness_AugmentationStopsWithoutModeOrRoom : State.reset.cksum = none ∧ holdsTest.cksum = some 1#1 ∧
    ({ holdsTest with msgCap := 9#16 } : State).msgCap.toNat < holdsTest.msgLen.toNat + 6 := by decide
theorem witness_NoStepWritesBelowTheLength : ∃ t,
    step (holdsTest.withFetchWord 32 0x31000041) = .next t ∧ 3 < holdsTest.msgLen.toNat := ⟨_, rfl, by decide⟩
theorem witness_TxbDrivesTheStartBitFirst : configured.lineId = some 5#8 ∧ configured.rev = some 0#1 ∧
    State.reset.lineId = none ∧ ({ configured with rev := none } : State).rev = none := by decide

/-- All five fields that TXB reads (70_reset_and_hazards.md R212). -/
theorem syncConfig_configured : SyncConfig configured 5#8 0#1 10000#32 1#1 3#3 := ⟨rfl, rfl, rfl, rfl, rfl⟩

theorem witness_TxbTransmitsOneFrame : ∃ s : State, SyncConfig s 5#8 0#1 10000#32 1#1 3#3 ∧ s.pending = [] ∧
    s.port = (0x40000000#32 ||| (0xC1#8).setWidth 32) :: [] ∧ s.turns = List.replicate 19 .host ++ [.tick] :=
  ⟨{ configured with port := [0x400000C1#32], turns := List.replicate 19 .host ++ [.tick] }, ⟨rfl, rfl, rfl, rfl, rfl⟩, rfl,
    by decide, rfl⟩
theorem witness_TxMsgTransmitsTheAugmentedMessage : ∃ (s : State) (new : List Byte),
    SyncConfig s 5#8 0#1 10000#32 1#1 3#3 ∧ s.cksum = some 0#1 ∧ s.message = some [0x4B#8] ∧
    new = [0x4B#8] ++ (if (0#1 : Flag) = 1#1 then suffix (crc16 [0x4B#8]) else []) ++ [0x0A#8] ∧
    new.length ≤ s.msgCap.toNat ∧ s.pending = [] ∧ s.port = [0x41000000#32] ∧
    s.turns = List.replicate (1 + 19 * new.length) .host ++ [] :=
  ⟨{ configured with
      cksum := some 0#1, msg := [(0, 0x4B#8)], msgLen := 1#16, port := [0x41000000#32],
      turns := List.replicate 39 .host }, _, ⟨rfl, rfl, rfl, rfl, rfl⟩, rfl, by decide, rfl, by decide, rfl, rfl, by rfl⟩
theorem witness_FrameDelaysSumToItsBitPeriods : ∃ s : State, SyncConfig s 5#8 0#1 11111#32 1#1 3#3 ∧ s.pending = [] ∧
    s.port = (0x40000000#32 ||| (0xC1#8).setWidth 32) :: [] ∧ s.turns = List.replicate 19 .host ++ [] ∧
    (3#3).toNat * (11111#32).toNat % 2 = 1 :=
  ⟨{ configured with timestep := some 11111#32, port := [0x400000C1#32], turns := List.replicate 19 .host },
    ⟨rfl, rfl, rfl, rfl, rfl⟩, rfl, by decide, by rfl, by decide⟩
theorem witness_FrameDelaysSumToItsBitPeriods_even : ∃ s : State, SyncConfig s 5#8 0#1 11111#32 1#1 2#3 ∧ s.pending = [] ∧
    s.port = (0x40000000#32 ||| (0xC1#8).setWidth 32) :: [] ∧ s.turns = List.replicate 19 .host ++ [] ∧
    (2#3).toNat * (11111#32).toNat % 2 = 0 :=
  ⟨{ configured with
      timestep := some 11111#32, stopHalves := some 2#3, port := [0x400000C1#32], turns := List.replicate 19 .host },
    ⟨rfl, rfl, rfl, rfl, rfl⟩, rfl, by decide, by rfl, by decide⟩
theorem witness_CfgUnwrittenNamesAnUnwrittenField :
    step (State.reset.withFetchWord 32 0x22000000) = .fault (.cfgUnwritten .timestep) := rfl
theorem witness_CfgUnwrittenNamesAnUnwrittenField_micro : ∃ f ∈ MicroStep.holdStop.reads,
    ({ configured with timestep := none } : State).written f = false := by decide
theorem witness_CfgUnwrittenNamesAnUnwrittenField_completes : (MicroStep.driveData (.message 3) 6).isSync = true ∧
    (∀ f ∈ (MicroStep.driveData (.message 3) 6).reads, holdsTest.written f = true) ∧
    ∀ source, (MicroStep.driveData (.message 3) 6).byteSource = some source →
      ∃ b, holdsTest.sourceByte source = some b :=
  ⟨rfl, by decide, by rintro _ ⟨⟩; exact ⟨0x54#8, by decide⟩⟩
theorem witness_TxAsyncQueuesWhatFits : ∃ (s : State) (new : List Byte), s.cksum = some 1#1 ∧
    s.message = some [0x54#8, 0x45#8, 0x53#8, 0x54#8] ∧
    new = [0x54#8, 0x45#8, 0x53#8, 0x54#8] ++ suffix (crc16 [0x54#8, 0x45#8, 0x53#8, 0x54#8]) ++ [0x0A#8] ∧
    new.length ≤ s.msgCap.toNat ∧ s.pending = [] ∧ s.port = [0x50000000#32] ∧
    s.turns = List.replicate (new.length + 3) .host ++ [] :=
  ⟨{ holdsTest with port := [0x50000000#32], turns := List.replicate 13 .host }, _, rfl, by decide, rfl, by decide, rfl, rfl,
    by rfl⟩
theorem witness_NoTickPopsDuringTxAsync : ∃ (s t : State), s.lock = true ∧ s.message = some [0x41#8] ∧
    s.pending = (List.range [0x41#8].length).map .push ++ [.clearLock] ∧ s.turns = [.tick, .host, .tick, .host] ++ [.tick] ∧
    [Context.tick, .host, .tick, .host].count .host = [0x41#8].length + 1 ∧
    [Context.tick, .host, .tick, .host].getLast? = some .host ∧ run 4 s = .next t :=
  ⟨{ pushing with turns := [.tick, .host, .tick, .host, .tick] }, _, rfl, by decide, by decide, rfl, by decide, by decide, rfl⟩
theorem witness_PushIntoAFullQueueIsLost : pushing.memRead 0 = some 0x41#8 ∧ pushing.queue.length < 255 ∧
    255 ≤ ({ pushing with queue := List.replicate 255 0x55#8 } : State).queue.length :=
  ⟨by decide, by decide, List.length_replicate.ge⟩
theorem witness_BufSzReturnsTheOccupancy : queued.queue.length ≤ 255 ∧
    ({ queued with queue := List.replicate 255 0x55#8 } : State).queue.length ≤ 255 := ⟨by decide, List.length_replicate.le⟩
theorem witness_TickInStartPopsAndDrives : queued.phase = .start ∧ queued.lock = false ∧ queued.queue = 0x55#8 :: [] ∧
    queued.lineId = some 5#8 ∧ queued.rev = some 0#1 ∧ configured.queue = [] ∧
    ({ queued with lock := true } : State).lock = true ∧ ({ queued with rev := none } : State).rev = none := by decide
theorem witness_TickInSendingDrivesTheNextBit : ∃ s : State, s.phase = .sending ∧ s.lineId = some 5#8 ∧
    s.rev = some 0#1 ∧ s.bitIdx.toNat < 7 ∧ s.curByte = some 0x55#8 :=
  ⟨{ configured with phase := .sending, bitIdx := 6#3, curByte := some 0x55#8 }, rfl, rfl, rfl, by decide, rfl⟩
theorem witness_TickInSendingDrivesTheNextBit_last : ∃ s : State, s.phase = .sending ∧ s.lineId = some 5#8 ∧
    s.rev = some 0#1 ∧ s.bitIdx.toNat = 7 := ⟨{ configured with phase := .sending, bitIdx := 7#3 }, rfl, rfl, rfl, rfl⟩
theorem witness_TickInSendingDrivesTheNextBit_unwritten : ∃ s : State, s.phase = .sending ∧ s.lineId = some 5#8 ∧
    s.rev = some 0#1 ∧ s.bitIdx.toNat < 7 ∧ s.curByte = none :=
  ⟨{ configured with phase := .sending }, rfl, rfl, rfl, by decide, rfl⟩
theorem witness_TickInSendingDrivesTheNextBit_unconfigured : ∃ s : State, s.phase = .sending ∧ s.lineId = none :=
  ⟨{ State.reset with phase := .sending }, rfl, rfl⟩
theorem witness_TickInStopReturnsToStart : ∃ s : State, s.phase = .stop ∧ s.stopHalves = some 4#3 ∧ (4#3).toNat = 4 ∧
    s.lineId = some 5#8 ∧ s.rev = some 0#1 :=
  ⟨{ configured with phase := .stop, stopHalves := some 4#3 }, rfl, rfl, rfl, rfl, rfl⟩
theorem witness_TickInStopReturnsToStart_oneAndAHalf : ∃ s : State, s.phase = .stop ∧ s.stopHalves = some 3#3 ∧
    (3#3).toNat ≠ 4 := ⟨{ configured with phase := .stop }, rfl, rfl, by decide⟩
theorem witness_TickInStopReturnsToStart_stops : ∃ s u : State, s.phase = .stop ∧ s.stopHalves = some 4#3 ∧ s.rev = none ∧
    u.phase = .stop ∧ u.stopHalves = none :=
  ⟨{ configured with phase := .stop, stopHalves := some 4#3, rev := none }, { State.reset with phase := .stop }, rfl, rfl, rfl,
    rfl, rfl⟩
theorem witness_TenTicksDrainEachQueuedByte : ∃ s : State, TickConfig s 5#8 0#1 3#3 ∧ s.queue.length = 2 ∧
    s.phase = .start ∧ s.lock = false ∧ s.turns = List.replicate (10 * 2) .tick ++ [.host] :=
  ⟨{ queued with queue := [0x48#8, 0x69#8], turns := List.replicate 20 .tick ++ [.host] }, ⟨rfl, rfl, rfl⟩, rfl, rfl, rfl, rfl⟩
theorem witness_EnoughTicksEndTheRun : ∃ s : State, TickConfig s 5#8 0#1 3#3 ∧ s.port = [] ∧ s.pending = [] ∧
    s.lock = false ∧ s.phase = .sending ∧ s.turns = List.replicate (10 * s.qsize + ticksOfByteInFlight s) .tick ++ [.tick] :=
  ⟨{ queued with phase := .sending, bitIdx := 3#3, curByte := some 0x41#8, turns := List.replicate 16 .tick ++ [.tick] },
    ⟨rfl, rfl, rfl⟩, rfl, rfl, rfl, rfl, rfl⟩
theorem witness_QueueIsAFifoUnderTheLock : ∃ t, HostPosition pushing ∧ step pushing = .next t ∧ pushing.lock = true :=
  ⟨_, .inr (.inr ⟨rfl, 0, by decide, by decide⟩), rfl, rfl⟩
theorem witness_QueueIsAFifoUnderTheLock_pop : ∃ t, HostPosition { queued with turns := [.tick] } ∧
    step { queued with turns := [.tick] } = .next t ∧ queued.lock = false := ⟨_, .inl ⟨rfl, nofun⟩, rfl, rfl⟩
theorem witness_OnlyTicksWriteTheTransmissionPhase : ∃ t, step pushing = .next t ∧ pushing.turns.head? ≠ some .tick :=
  ⟨_, rfl, by decide⟩
theorem witness_TickLeavesTheHostSideAlone : ∃ t, exec .tick queued = .next t := ⟨_, rfl⟩
theorem witness_ReadersAnswerOnceAndChangeNothing : ∃ t u, exec .getBaud configured = .next t ∧
    Instr.getBaud.returnsWord = true ∧ exec (.txb 0x41#8) configured = .next u ∧ (Instr.txb 0x41#8).returnsWord = false :=
  ⟨_, _, rfl, rfl, rfl, rfl⟩
theorem witness_ReadersAnswerOnceAndChangeNothing_micro : ∃ t, execMicro (.push 0) pushing = .next t := ⟨_, rfl⟩
theorem witness_HistoryOnlyGrowsAndTheLineFollows : ∃ t, step { queued with turns := [.tick] } = .next t := ⟨_, rfl⟩
theorem witness_ResetMeetsTheInvariants : (256#16 : BitVec 16) ≠ 0#16 := by decide

/-- A state in the middle of a TXASYNC meets the invariants. -/
theorem pushing_meets_the_invariants : Inv pushing where
  memWf := by decide
  memBelowCap := by decide
  msgBacked := by decide
  msgFits := by decide
  capPositive := by decide
  queueFits := by decide
  byteInFlight := by decide
  timestepRange := by rintro ts ⟨⟩; decide
  stopRange := by rintro sh ⟨⟩; decide
  hostPosition := .inr (.inr ⟨rfl, 0, by decide, by decide⟩)

theorem witness_EveryStepKeepsTheInvariants : ∃ t, Inv pushing ∧ step pushing = .next t :=
  ⟨_, pushing_meets_the_invariants, rfl⟩
theorem witness_NoRunReadsAByteWithoutAValue : Inv pushing := pushing_meets_the_invariants

end Sys2Proof.Tests
end

section
/-! The illegal words (spec/30_encoding.md R65): what the decoder answers row by row of the opcode map, what an illegal
word does at the command port, and the words of SETBAUD, SETSTOP and MSG.GET, legal with every operand. -/

namespace Sys2Proof

/-- A format rejects exactly the words with a must-be-zero bit set. -/
theorem checked_illegal_iff {f : Format} {w : Word} {i : Instr} :
    (∃ why, checked f w i = .illegal why) ↔ w &&& f.mustBeZero ≠ 0#32 := by
  unfold checked
  split
  · next hz => simp [hz]
  · next hz => simp [hz]

/-- A word with the opcode of a row is read by that row's format. -/
theorem decode_of_mem_opcodeMap {r : OpcodeRow} {w : Word} (hr : r ∈ opcodeMap) (hop : r.op = opcodeField w) :
    ∃ i, decode w = checked r.format w i := by
  unfold decode
  rw [← hop]
  fin_cases hr <;> exact ⟨_, rfl⟩

/-- A word whose opcode is in no row is illegal. -/
theorem decode_of_no_row {w : Word} (h : ∀ r ∈ opcodeMap, r.op ≠ opcodeField w) :
    decode w = .illegal (.unknownOpcode (opcodeField w)) := by
  unfold decode
  split
  case h_20 => rfl
  all_goals
    next hop =>
      rw [hop] at h
      exact absurd h (by decide)

/-- R65: a word is illegal exactly when its opcode is in no row, or it sets a must-be-zero bit of its opcode's row. -/
theorem decode_illegal_iff (w : Word) :
    (∃ why, decode w = .illegal why) ↔
      (∀ r ∈ opcodeMap, r.op ≠ opcodeField w) ∨
        ∃ r ∈ opcodeMap, r.op = opcodeField w ∧ w &&& r.format.mustBeZero ≠ 0#32 := by
  constructor
  · intro hill
    by_cases hrow : ∃ r ∈ opcodeMap, r.op = opcodeField w
    · obtain ⟨r, hr, hop⟩ := hrow
      obtain ⟨i, hi⟩ := decode_of_mem_opcodeMap hr hop
      exact .inr ⟨r, hr, hop, checked_illegal_iff.mp (hi ▸ hill)⟩
    · exact .inl fun r hr hop => hrow ⟨r, hr, hop⟩
  · rintro (hno | ⟨r, hr, hop, hbit⟩)
    · exact ⟨_, decode_of_no_row hno⟩
    · obtain ⟨i, hi⟩ := decode_of_mem_opcodeMap hr hop
      exact hi ▸ checked_illegal_iff.mpr hbit

/-- The word `op << 24 | v` of a format that leaves the bits of `v` free decodes to the instruction with operand `v`. -/
theorem checked_or_setWidth {n : Nat} {f : Format} {op : Word} (mk : BitVec n → Instr) (v : BitVec n) (hn : n ≤ 32)
    (hop : op &&& f.mustBeZero = 0#32) (hf : f.mustBeZero.extractLsb' 0 n = 0#n) (hlow : op.extractLsb' 0 n = 0#n) :
    checked f (op ||| v.setWidth 32) (mk ((op ||| v.setWidth 32).extractLsb' 0 n)) = .ok (mk v) := by
  rw [extract_or_setWidth op v hn hlow]
  exact checked_of_zero (or_setWidth_and_eq_zero v hop hf)

/-- Every SETBAUD word is legal, whatever the rate. -/
theorem decode_setBaud (r : BitVec 24) : decode (0x21000000#32 ||| r.setWidth 32) = .ok (.setBaud r) := by
  unfold decode
  rw [opcodeField_or (by decide)]
  exact checked_or_setWidth .setBaud r (by decide) (by decide) (by decide) (by decide)

/-- Every SETSTOP word is legal, whatever the count. -/
theorem decode_setStop (h : BitVec 3) : decode (0x25000000#32 ||| h.setWidth 32) = .ok (.setStop h) := by
  unfold decode
  rw [opcodeField_or (by decide)]
  exact checked_or_setWidth .setStop h (by decide) (by decide) (by decide) (by decide)

/-- Every MSG.GET word is legal, whatever the index. -/
theorem decode_msgGet (i : BitVec 16) : decode (0x33000000#32 ||| i.setWidth 32) = .ok (.msgGet i) := by
  unfold decode
  rw [opcodeField_or (by decide)]
  exact checked_or_setWidth .msgGet i (by decide) (by decide) (by decide) (by decide)

end Sys2Proof

namespace Sys2Proof.Machine

/-- An illegal word is refused by its name. -/
theorem issue_of_illegal {w : Word} {s : State} (h : ∃ why, decode w = .illegal why) :
    issue w s = .refused (.illegalCommand w) := by
  obtain ⟨why, hd⟩ := h
  simp [issue, hd]

/-- A step of the HOST that takes an illegal word ends in its refusal. -/
theorem step_of_illegal {w : Word} {ws : List Word} {ts : List Context} {s : State}
    (h : ∃ why, decode w = .illegal why) (hp : s.pending = []) (hw : s.port = w :: ws) (ht : s.turns = .host :: ts) :
    step s = .refused (.illegalCommand w) := by
  rw [step_host ht, hostTurn_issue (by exact hp) (by exact hw), issue_of_illegal h]

/-- Settles O5: the decoder row by row of the opcode map, the refusal at the port, and the words with a free operand. -/
theorem illegalWordsAreRefused : Obligations.IllegalWordsAreRefused :=
  ⟨decode_illegal_iff, fun _ _ h => issue_of_illegal h, fun _ _ _ _ h hp hw ht => step_of_illegal h hp hw ht,
    decode_setBaud, decode_setStop, decode_msgGet⟩

end Sys2Proof.Machine
end

section
/-! The Checksum Engine (spec/40_crc.md): the words of CRC.INIT and CRC.RD, the closed form of the byte update, a nibble
at a time, which is the table-free fold of R82, and the two commands. -/

namespace Sys2Proof

/-- Format N admits a word `op << 24 | arg` only if `arg` is zero (30_encoding.md R61). -/
theorem eq_zero_of_formatN {op : Word} {arg : BitVec 24} (hop : op.extractLsb' 0 24 = 0#24)
    (h : (op ||| arg.setWidth 32) &&& Format.N.mustBeZero = 0#32) : arg = 0#24 := by
  have hmask : Format.N.mustBeZero.extractLsb' 0 24 = BitVec.allOnes 24 := by decide
  calc arg = (op ||| arg.setWidth 32).extractLsb' 0 24 := (extract_or_setWidth op arg (by decide) hop).symm
    _ = ((op ||| arg.setWidth 32) &&& Format.N.mustBeZero).extractLsb' 0 24 := by
      rw [BitVec.extractLsb'_and, hmask, BitVec.and_allOnes]
    _ = 0#24 := by rw [h, BitVec.extractLsb'_zero]

theorem decode_crcInit : decode 0x10000000#32 = .ok .crcInit := by decide

/-- A word of CRC.INIT's opcode with a non-zero operand field is illegal (30_encoding.md R65). -/
theorem decode_crcInit_illegal {arg : BitVec 24} (h : arg ≠ 0#24) :
    ∃ why, decode (0x10000000#32 ||| arg.setWidth 32) = .illegal why := by
  have hop : opcodeField (0x10000000#32 ||| arg.setWidth 32) = 0x10#8 := opcodeField_or (by decide) _ arg
  have hbit : (0x10000000#32 ||| arg.setWidth 32) &&& Format.N.mustBeZero ≠ 0#32 := mt (eq_zero_of_formatN (by decide)) h
  exact (decode_illegal_iff _).mpr (.inr ⟨⟨"CRC.INIT", 0x10#8, .N⟩, by decide, hop.symm, hbit⟩)

theorem decode_crcRd : decode 0x12000000#32 = .ok .crcRd := by decide

end Sys2Proof

namespace Sys2Proof.Machine

/-- The terms x^12, x^5 and 1 of the polynomial, for all the bits `t` shifted out at once: what R82 folds back. -/
def crc16Spread (t : BitVec 16) : BitVec 16 := t ^^^ (t <<< 5) ^^^ (t <<< 12)

theorem crc16Spread_xor (t u : BitVec 16) : crc16Spread (t ^^^ u) = crc16Spread t ^^^ crc16Spread u := by
  simp only [crc16Spread, BitVec.shiftLeft_xor_distrib]
  ac_rfl

theorem crc16Spread_shiftLeft (t : BitVec 16) (n : Nat) : crc16Spread (t <<< n) = crc16Spread t <<< n := by
  simp only [crc16Spread, BitVec.shiftLeft_xor_distrib, ← BitVec.shiftLeft_add, Nat.add_comm]

/-- One shift of R81 without its choice: it folds back the one bit it shifts out. -/
theorem crc16Shift_eq (x : BitVec 16) : crc16Shift x = (x <<< 1) ^^^ crc16Spread (x >>> 15) := by
  have htop : x >>> 15 = if x.getLsbD 15 then 1#16 else 0#16 := by
    ext i hi
    cases h : x[15] <;> interval_cases i <;> simp [h]
  rw [htop, crc16Shift]
  split
  · rfl
  · exact BitVec.xor_zero.symm

/-- Four shifts fold back the four bits they shift out: no term of the polynomial reaches bit 15 before the fifth. -/
theorem repeat_crc16Shift_four (x : BitVec 16) :
    Nat.repeat crc16Shift 4 x = (x <<< 4) ^^^ crc16Spread (x >>> 12) := by
  simp only [Nat.repeat, crc16Shift_eq, crc16Spread]
  ext i hi
  interval_cases i <;> simp

/-- Folding back the upper nibble puts it, by the term x^12, into the nibble that is shifted out next. -/
theorem crc16Spread_nibble_ushiftRight (x : BitVec 16) : crc16Spread (x >>> 12) >>> 12 = x >>> 12 := by
  rw [crc16Spread]
  ext i hi
  interval_cases i <;> simp

/-- The two nibbles of the upper byte, from the two turns of four shifts. -/
theorem shiftLeft_ushiftRight_nibbles (x : BitVec 16) : (x >>> 12) <<< 4 ^^^ (x <<< 4) >>> 12 = x >>> 8 := by
  ext i hi
  interval_cases i <;> simp

/-- The eight shifts of R81 in closed form: shift the upper byte out, fold it back with its upper nibble added to its
lower one. -/
theorem repeat_crc16Shift_eight (x : BitVec 16) :
    Nat.repeat crc16Shift 8 x = (x <<< 8) ^^^ crc16Spread (x >>> 8 ^^^ x >>> 12) := by
  calc Nat.repeat crc16Shift 8 x
      = Nat.repeat crc16Shift 4 (Nat.repeat crc16Shift 4 x) := rfl
    _ = ((x <<< 4) ^^^ crc16Spread (x >>> 12)) <<< 4 ^^^
          crc16Spread ((x <<< 4) >>> 12 ^^^ crc16Spread (x >>> 12) >>> 12) := by
      rw [repeat_crc16Shift_four, repeat_crc16Shift_four, BitVec.ushiftRight_xor_distrib]
    _ = (x <<< 8) ^^^ (crc16Spread ((x >>> 12) <<< 4) ^^^ crc16Spread ((x <<< 4) >>> 12 ^^^ x >>> 12)) := by
      rw [crc16Spread_nibble_ushiftRight, BitVec.shiftLeft_xor_distrib, ← BitVec.shiftLeft_add,
        crc16Spread_shiftLeft, BitVec.xor_assoc]
    _ = (x <<< 8) ^^^ crc16Spread (x >>> 8 ^^^ x >>> 12) := by
      rw [← crc16Spread_xor, ← BitVec.xor_assoc, shiftLeft_ushiftRight_nibbles]

/-- `b << 8` as a shift (R81). -/
theorem append_zero_byte (b : Byte) : b ++ 0x00#8 = b.setWidth 16 <<< 8 := by
  ext i hi
  rw [BitVec.getElem_append]
  interval_cases i <;> simp

/-- The fold of R82 in terms of the register R81 shifts, `c` with `b` added to its upper byte. -/
theorem crc16UpdateFold_eq (c : BitVec 16) (b : Byte) {x : BitVec 16} (hx : x = c ^^^ (b ++ 0x00#8)) :
    crc16UpdateFold c b = (x <<< 8) ^^^ crc16Spread (x >>> 8 ^^^ x >>> 12) := by
  have hlow : c <<< 8 = x <<< 8 := by
    rw [hx, append_zero_byte]
    ext i hi
    interval_cases i <;> simp
  have hupper : (c >>> 8).setWidth 8 ^^^ b = (x >>> 8).setWidth 8 := by
    rw [hx, append_zero_byte]
    ext i hi
    interval_cases i <;> simp
  have hfolded : ((x >>> 8).setWidth 8 ^^^ (x >>> 8).setWidth 8 >>> 4 : Byte).setWidth 16 = x >>> 8 ^^^ x >>> 12 := by
    ext i hi
    interval_cases i <;> simp
  simp only [crc16UpdateFold, hlow, hupper, hfolded, crc16Spread, BitVec.xor_assoc]

/-- Settles O14: both forms are the closed form of the eight shifts. -/
theorem crcFoldIsTheBitSerialUpdate : Obligations.CrcFoldIsTheBitSerialUpdate := by
  intro c b
  rw [crc16UpdateFold_eq c b rfl, crc16Update, repeat_crc16Shift_eight]

theorem exec_crcInit (s : State) : exec .crcInit s = .next { s with crc := 0xFFFF#16 } := rfl

/-- Settles O10: its word, the must-be-zero bits beside it, and its meaning. -/
theorem crcInitLoadsTheInitialValue : Obligations.CrcInitLoadsTheInitialValue :=
  ⟨decode_crcInit, fun _ _ h => issue_of_illegal (decode_crcInit_illegal h), exec_crcInit⟩

theorem exec_crcRd (s : State) :
    exec .crcRd s = .next { s with responses := s.responses ++ [s.crc.setWidth 32] } := rfl

/-- Settles O13: its word and its meaning. -/
theorem crcRdReturnsTheCrc : Obligations.CrcRdReturnsTheCrc := ⟨decode_crcRd, exec_crcRd⟩

end Sys2Proof.Machine
end

section
/-! The Line Configuration (spec/42_config.md): the words and meanings of SETLINE, SETBAUD, GETBAUD and GETCKSUM, and
the arithmetic of the baud round trip. -/

namespace Sys2Proof

/-- All 256 SETLINE words are legal. -/
theorem decode_setLine (b : Byte) : decode (0x20000000#32 ||| b.setWidth 32) = .ok (.setLine b) := by
  unfold decode
  rw [opcodeField_or (by decide)]
  exact checked_or_setWidth .setLine b (by decide) (by decide) (by decide) (by decide)

theorem decode_getCksum : decode 0x24000000#32 = .ok .getCksum := by decide

end Sys2Proof

namespace Sys2Proof.Machine

/-- Reading a written field goes on with its value (10_state.md R23). -/
theorem withCfg_of_written {α : Type} {value : Option α} {v : α} {n : ConfigField} {k : α → Result}
    (h : value = some v) : withCfg value n k = k v := by rw [h, withCfg_some]

theorem withCfg_of_unwritten {α : Type} {value : Option α} {n : ConfigField} {k : α → Result} (h : value = none) :
    withCfg value n k = .fault (.cfgUnwritten n) := by rw [h, withCfg_none]

theorem exec_setLine (b : Byte) (s : State) :
    exec (.setLine b) s = .next { s with lineId := some b, ev := s.ev ++ [.lineMode b] } := rfl

/-- Settles O21: its word and its meaning. -/
theorem setLineStoresAndConfiguresTheLine : Obligations.SetLineStoresAndConfiguresTheLine :=
  fun b s => ⟨decode_setLine b, exec_setLine b s⟩

/-! ### The half bit -/

/-- The timestep of a rate, without the quotient by zero (R103). -/
theorem timestepOf_eq {r : BitVec 24} (h : 1 ≤ r.toNat) : timestepOf r = BitVec.ofNat 32 (500000 / r.toNat) :=
  congrArg (BitVec.ofNat 32) (floorDiv_of_pos 500000 h)

theorem exec_setBaud_of_legal {r : BitVec 24} (h : baudLegal r = true) (s : State) :
    exec (.setBaud r) s = .next { s with timestep := some (timestepOf r) } := if_pos h

theorem exec_setBaud_of_not_legal {r : BitVec 24} (h : ¬ baudLegal r = true) (s : State) :
    exec (.setBaud r) s = .fault (.baudRange r) := if_neg h

/-- Settles O22: the rates of R104 are those that `baudLegal` admits. -/
theorem setBaudStoresTheHalfBit : Obligations.SetBaudStoresTheHalfBit := by
  refine fun r s => ⟨decode_setBaud r, fun h1 h2 => ?_, fun hout => ?_⟩
  · rw [exec_setBaud_of_legal ((baudLegal_iff r).mpr ⟨h1, h2⟩), timestepOf_eq h1]
  · have hr : ¬ baudLegal r = true := by
      rw [baudLegal_iff]
      omega
    exact exec_setBaud_of_not_legal hr s

/-! ### The baud round trip -/

/-- GETBAUD's response as a number (R105). -/
theorem baudOf_toNat {ts : BitVec 32} (h : 1 ≤ ts.toNat) : (baudOf ts).toNat = 500000 / ts.toNat := by
  have hle : 500000 / ts.toNat ≤ 500000 := Nat.div_le_self _ _
  have hmod : 500000 / ts.toNat % 2 ^ 32 = 500000 / ts.toNat := Nat.mod_eq_of_lt (by omega)
  rw [baudOf, floorDiv_of_pos _ h, BitVec.toNat_ofNat, hmod]

theorem exec_getBaud_of_written {s : State} {ts : BitVec 32} (h : s.timestep = some ts) :
    exec .getBaud s = .next { s with responses := s.responses ++ [baudOf ts] } :=
  withCfg_of_written h

/-- Dividing by a quotient of `n` gives back at least the divisor: the quotient was rounded down. -/
theorem le_div_div {n r : Nat} (h1 : 1 ≤ r) (h2 : r ≤ n) : r ≤ n / (n / r) := by
  have hpos : 0 < n / r := Nat.div_pos h2 h1
  exact (Nat.le_div_iff_mul_le hpos).mpr (Nat.mul_div_le n r)

/-- The rates that R106 lists survive the two divisions. -/
theorem div_div_of_mem_listed {r : Nat} (h : r ∈ [45, 50, 75, 100, 110, 150, 300, 250000]) :
    500000 / (500000 / r) = r := by
  have hall : ∀ r ∈ [45, 50, 75, 100, 110, 150, 300, 250000], 500000 / (500000 / r) = r := by decide
  exact hall r h

/-- Above half of 500000 the half bit is a single microsecond (R104), and the rate it stands for is 500000 (R106). -/
theorem div_div_of_gt_half {r : Nat} (h1 : 250001 ≤ r) (h2 : r ≤ 500000) : 500000 / (500000 / r) = 500000 := by
  have hstep : 500000 / r = 1 := Nat.div_eq_of_lt_le (by omega) (by omega)
  rw [hstep, Nat.div_one]

/-- Settles O24: GETBAUD answers from the timestep that SETBAUD has stored, and the rest is about the two divisions. -/
theorem baudRoundTripIsLossyUpwards : Obligations.BaudRoundTripIsLossyUpwards := by
  intro r s h1 h2
  have hlegal : baudLegal r = true := (baudLegal_iff r).mpr ⟨h1, h2⟩
  have hw : (baudOf (timestepOf r)).toNat = 500000 / (500000 / r.toNat) := by
    rw [baudOf_toNat (timestepOf_range hlegal).1, timestepOf_toNat h1]
  refine ⟨_, baudOf (timestepOf r), exec_setBaud_of_legal hlegal s, exec_getBaud_of_written rfl, hw, ?_, ?_, ?_⟩
  · exact hw ▸ le_div_div h1 h2
  · exact fun hlisted => hw.trans (div_div_of_mem_listed hlisted)
  · exact fun hhigh => hw.trans (div_div_of_gt_half hhigh h2)

/-! ### The checksum mode -/

theorem exec_getCksum_of_written {s : State} {f : Flag} (h : s.cksum = some f) :
    exec .getCksum s = .next { s with responses := s.responses ++ [f.setWidth 32] } :=
  withCfg_of_written h

theorem exec_getCksum_of_unwritten {s : State} (h : s.cksum = none) :
    exec .getCksum s = .fault (.cfgUnwritten .cksum) :=
  withCfg_of_unwritten h

/-- Settles O26: its word, its response and its fault. -/
theorem getCksumReturnsTheMode : Obligations.GetCksumReturnsTheMode :=
  ⟨decode_getCksum, fun _ => ⟨fun _ => exec_getCksum_of_written, exec_getCksum_of_unwritten⟩⟩

end Sys2Proof.Machine
end

section
/-! The Message Buffer's commands and the checksum suffix (spec/43_message.md): the word and meaning of MSG.CLR, and the
four hexadecimal digits of a CRC. -/

namespace Sys2Proof

theorem decode_msgClr : decode 0x30000000#32 = .ok .msgClr := by decide

end Sys2Proof

namespace Sys2Proof.Machine

/-! ### MSG.CLR -/

theorem exec_msgClr (s : State) : exec .msgClr s = .next { s with msgLen := 0#16 } := rfl

/-- At length 0 the message is empty, whatever bytes `MSG` still holds (20_memory.md R41). -/
theorem message_of_msgLen_zero {s : State} (h : s.msgLen = 0#16) : s.message = some [] := by
  rw [State.message, h]
  rfl

/-- Settles O29: its word, its meaning, and no index readable in the empty message. -/
theorem msgClrEmptiesTheMessage : Obligations.MsgClrEmptiesTheMessage := by
  refine ⟨decode_msgClr, fun s => ?_⟩
  have hempty : State.message { s with msgLen := 0#16 } = some [] := message_of_msgLen_zero rfl
  exact ⟨_, exec_msgClr s, rfl, memRead_of_message hempty, hempty⟩

/-! ### The suffix -/

/-- The hexadecimal digits of `c`, its four-bit fields, the most significant first (R127). -/
def nibbles (c : BitVec 16) : Fin 4 → Fin 16 :=
  ![(c.extractLsb' 12 4).toFin, (c.extractLsb' 8 4).toFin, (c.extractLsb' 4 4).toFin, (c.extractLsb' 0 4).toFin]

/-- The nibbles are the digits of `c` in base 16. -/
theorem toNat_eq_sum_nibbles (c : BitVec 16) :
    c.toNat = (nibbles c 0).val * 4096 + (nibbles c 1).val * 256 + (nibbles c 2).val * 16 + (nibbles c 3).val := by
  have hc : c.toNat < 65536 := c.isLt
  have hfield (start : Nat) : (c.extractLsb' start 4).toFin.val = c.toNat / 2 ^ start % 16 := by
    rw [BitVec.val_toFin, BitVec.extractLsb'_toNat, Nat.shiftRight_eq_div_pow]
  simp only [nibbles, Matrix.cons_val, hfield]
  omega

/-- The ASCII code of a digit by its value: from `0` up to 9, from `A` above (R125). -/
theorem hexDigit_eq_ofNat (n : BitVec 4) :
    hexDigit n =
      if n.toFin.val ≤ 9 then BitVec.ofNat 8 (0x30 + n.toFin.val) else BitVec.ofNat 8 (0x41 + (n.toFin.val - 10)) := by
  rw [hexDigit, BitVec.val_toFin]
  split
  · bv_omega
  · bv_omega

/-- Settles O33: the digits are the nibbles, and each is written by its ASCII code. -/
theorem suffixIsFourUppercaseHexDigits : Obligations.SuffixIsFourUppercaseHexDigits := by
  refine fun c => ⟨nibbles c, toNat_eq_sum_nibbles c, ?_⟩
  simp only [suffix, hexDigit_eq_ofNat]
  rfl

end Sys2Proof.Machine
end

section
/-! The TICK event (spec/45_async_tx.md R160 to R169): its rules, by the phase and what each tests; the run of ticks in
reverse keying beside the one in normal keying; and the ticks that drain the queue. -/

namespace Sys2Proof.Machine

/-- A run whose first step is a TICK event. -/
theorem run_succ_of_tick {s t : State} {ts : List Context} (n : Nat) (hts : s.turns = .tick :: ts)
    (h : exec .tick { s with turns := ts } = .next t) : run (n + 1) s = run n t :=
  run_succ_of_step n (by rw [step_tick hts, h])

/-! ### The rules of a tick -/

/-- START, under the lock or with nothing queued: nothing happens (R161). -/
theorem exec_tick_of_waiting {s : State} (hph : s.phase = .start) (h : s.lock = true ∨ s.queue = []) :
    exec .tick s = .next s := by
  cases hl : s.lock with
  | true => simp [exec, execTick, hph, tickStart, hl]
  | false =>
    have hq : s.queue = [] := by simpa [hl] using h
    simp [exec, execTick, hph, tickStart, hl, pop_nil hq]

/-- The state in which a tick in START drives the line: the byte is popped, and nothing of it is sent (R161). -/
def State.takeByte (s : State) (b : Byte) (q : List Byte) : State :=
  { s with queue := q, curByte := some b, bitIdx := 0#3, phase := .sending }

/-- START, with the lock free and a byte queued: the byte is popped and its start level driven (R161). -/
theorem exec_tick_of_queued {s : State} {b : Byte} {q : List Byte} (hph : s.phase = .start) (hl : s.lock = false)
    (hq : s.queue = b :: q) : exec .tick s = drive startBitLevel (s.takeByte b q) := by
  simp [exec, execTick, hph, tickStart, hl, pop_cons hq, State.takeByte]

/-- SENDING, with a data bit left: the bit is driven (R162). -/
theorem exec_tick_of_bit_left {s : State} (hph : s.phase = .sending) (hb : s.bitIdx.toNat < 7) :
    exec .tick s = drive (dataBitLevel s.readCurByte s.bitIdx.toNat) { s with bitIdx := s.bitIdx + 1#3 } := by
  have hb' : s.bitIdx.toNat < Config.asciiBits := hb
  simp [exec, execTick, hph, tickSending, hb']

/-- SENDING, with no data bit left: the stop level is driven (R162). -/
theorem exec_tick_of_no_bit_left {s : State} (hph : s.phase = .sending) (hb : ¬ s.bitIdx.toNat < 7) :
    exec .tick s = drive stopBitLevel { s with phase := .stop } := by
  have hb' : ¬ s.bitIdx.toNat < Config.asciiBits := hb
  simp [exec, execTick, hph, tickSending, hb']

/-- STOP, for two stop bits: the stop level is driven again (R163). -/
theorem exec_tick_of_two_stop_bits {s : State} (hph : s.phase = .stop) (hsh : s.stopHalves = some 4#3) :
    exec .tick s = drive stopBitLevel { s with phase := .start } := by
  simp [exec, execTick, hph, tickStop, hsh, isTwoStopBits_iff]

/-- STOP, for any other stop-bit count: nothing is driven (R163). -/
theorem exec_tick_of_not_two_stop_bits {s : State} {sh : BitVec 3} (hph : s.phase = .stop)
    (hsh : s.stopHalves = some sh) (h4 : sh ≠ 4#3) : exec .tick s = .next { s with phase := .start } := by
  simp [exec, execTick, hph, tickStop, hsh, isTwoStopBits_iff, h4]

/-- STOP, with the stop-bit count unwritten: the tick stops (R163). -/
theorem exec_tick_of_stopHalves_unwritten {s : State} (hph : s.phase = .stop) (hsh : s.stopHalves = none) :
    exec .tick s = .fault (.cfgUnwritten .stopHalves) := by
  simp [exec, execTick, hph, tickStop, hsh]

/-- Driving the line with `line_id` or `rev` unwritten stops, and names an unwritten one of the two (R160). -/
theorem drive_fault_of_unwritten {level : Flag → Level} {s : State} (h : s.lineId = none ∨ s.rev = none) :
    ∃ f, drive level s = .fault (.cfgUnwritten f) ∧ (f = .lineId ∨ f = .rev) ∧ s.written f = false := by
  obtain ⟨hid, hd⟩ | ⟨hrev, hd⟩ := drive_of_unwritten (level := level) h
  · exact ⟨.lineId, hd, .inl rfl, by simp [State.written, hid]⟩
  · exact ⟨.rev, hd, .inr rfl, by simp [State.written, hrev]⟩

/-- Settles O47: the two ways to wait, and the pop with the line configured or not. -/
theorem tickInStartPopsAndDrives : Obligations.TickInStartPopsAndDrives := by
  refine fun s hph => ⟨exec_tick_of_waiting hph, fun b q hl hq => ?_⟩
  rw [exec_tick_of_queued hph hl hq]
  exact ⟨fun id rev hid hrev => drive_of_written hid hrev, fun h => drive_fault_of_unwritten (s := s.takeByte b q) h⟩

/-- Settles O49: `stop_halves` is read first, and its value decides whether the line is driven. -/
theorem tickInStopReturnsToStart : Obligations.TickInStopReturnsToStart := by
  refine fun s hph => ⟨fun sh hsh => ?_, exec_tick_of_stopHalves_unwritten hph⟩
  by_cases h4 : sh = 4#3
  · subst h4
    rw [exec_tick_of_two_stop_bits hph hsh]
    exact ⟨fun id rev _ hid hrev => drive_of_written hid hrev, fun hne => absurd rfl hne,
      fun _ h => drive_fault_of_unwritten (s := { s with phase := .start }) h⟩
  · have hne : sh.toNat ≠ 4 := fun heq => h4 (BitVec.eq_of_toNat_eq heq)
    exact ⟨fun _ _ heq => absurd heq hne, fun _ => exec_tick_of_not_two_stop_bits hph hsh h4,
      fun heq => absurd heq hne⟩

/-- A tick leaves the schedule as it is. -/
theorem exec_tick_turns {s t : State} (h : exec .tick s = .next t) : t.turns = s.turns := by
  obtain ⟨-, h⟩ | ⟨-, h⟩ | ⟨-, h⟩ := execTick_next h
  · obtain ⟨-, rfl⟩ | ⟨b, q, id, rev, -, -, -, -, rfl⟩ := tickStart_next h
    · rfl
    · rfl
  · obtain ⟨id, rev, -, -, ⟨-, rfl⟩ | ⟨-, rfl⟩⟩ := tickSending_next h
    · rfl
    · rfl
  · obtain ⟨sh, -, ⟨-, id, rev, -, -, rfl⟩ | ⟨-, rfl⟩⟩ := tickStop_next h
    · rfl
    · rfl

/-! ### Reverse keying -/

theorem startBitLevel_reversed : startBitLevel 1#1 = ~~~(startBitLevel 0#1) := by decide

theorem stopBitLevel_reversed : stopBitLevel 1#1 = ~~~(stopBitLevel 0#1) := by decide

theorem dataBitLevel_reversed (b : Byte) (i : Nat) : dataBitLevel b i 1#1 = ~~~(dataBitLevel b i 0#1) := by
  have hall : ∀ x : BitVec 1, x ^^^ 1#1 = ~~~(x ^^^ 0#1) := by decide
  exact hall _

/-- The state with reverse keying, the events `es` and the line at `l`. -/
def State.reversed (s : State) (es : List Event) (l : Option Level) : State :=
  { s with rev := some 1#1, ev := es, lineLevel := l }

/-- `u` is `t` in reverse keying: since the history `ev` the same events, every level complemented (R169). -/
def Reversed (ev : List Event) (t u : State) : Prop :=
  t.rev = some 0#1 ∧ ∃ es l, t.ev = ev ++ es ∧ u = t.reversed (ev ++ es.map Event.inverted) l

/-- A level that the polarity complements, driven from two states each other's reverse. -/
theorem drive_reversed {ev : List Event} {level : Flag → Level} {t t' u : State} (hlevel : level 1#1 = ~~~(level 0#1))
    (hr : Reversed ev t u) (h : drive level t = .next t') : ∃ u', drive level u = .next u' ∧ Reversed ev t' u' := by
  obtain ⟨hrev, es, l, hev, rfl⟩ := hr
  obtain ⟨id, rev, hid, hrev', rfl⟩ := drive_next h
  obtain rfl : rev = 0#1 := by simpa [hrev] using hrev'.symm
  refine ⟨_, drive_of_written hid rfl, hrev, es ++ [.lineSet id (level 0#1)], some (level 1#1), ?_, ?_⟩
  · simp [hev]
  · simp [State.driveTo, State.emit, State.reversed, Event.inverted, hlevel]

/-- Two ticks that drive such a level, from states that are again each other's reverse. -/
theorem exec_tick_reversed_of_drive {ev : List Event} {level : Flag → Level} {t t' u x y : State}
    (hlevel : level 1#1 = ~~~(level 0#1)) (ht : exec .tick t = drive level x) (hu : exec .tick u = drive level y)
    (hr : Reversed ev x y) (h : exec .tick t = .next t') : ∃ u', exec .tick u = .next u' ∧ Reversed ev t' u' :=
  hu ▸ drive_reversed hlevel hr (ht ▸ h)

/-- In reverse keying a tick takes the same rule as in normal keying (R169). -/
theorem exec_tick_reversed {ev : List Event} {t t' u : State} (hr : Reversed ev t u) (h : exec .tick t = .next t') :
    ∃ u', exec .tick u = .next u' ∧ Reversed ev t' u' := by
  obtain ⟨hrev, es, l, hev, rfl⟩ := hr
  cases hph : t.phase with
  | start =>
    by_cases hw : t.lock = true ∨ t.queue = []
    · rw [exec_tick_of_waiting hph hw] at h
      cases h
      exact ⟨_, exec_tick_of_waiting hph hw, hrev, es, l, hev, rfl⟩
    · obtain ⟨hl, hq⟩ : t.lock = false ∧ t.queue ≠ [] := by simpa using hw
      obtain ⟨b, q, hq⟩ := List.exists_cons_of_ne_nil hq
      exact exec_tick_reversed_of_drive startBitLevel_reversed (exec_tick_of_queued hph hl hq)
        (exec_tick_of_queued hph hl hq) ⟨hrev, es, l, hev, rfl⟩ h
  | sending =>
    by_cases hb : t.bitIdx.toNat < 7
    · exact exec_tick_reversed_of_drive (dataBitLevel_reversed _ _) (exec_tick_of_bit_left hph hb)
        (exec_tick_of_bit_left hph hb) ⟨hrev, es, l, hev, rfl⟩ h
    · exact exec_tick_reversed_of_drive stopBitLevel_reversed (exec_tick_of_no_bit_left hph hb)
        (exec_tick_of_no_bit_left hph hb) ⟨hrev, es, l, hev, rfl⟩ h
  | stop =>
    cases hsh : t.stopHalves with
    | none => simp [exec_tick_of_stopHalves_unwritten hph hsh] at h
    | some sh =>
      by_cases h4 : sh = 4#3
      · subst h4
        exact exec_tick_reversed_of_drive stopBitLevel_reversed (exec_tick_of_two_stop_bits hph hsh)
          (exec_tick_of_two_stop_bits hph hsh) ⟨hrev, es, l, hev, rfl⟩ h
      · rw [exec_tick_of_not_two_stop_bits hph hsh h4] at h
        cases h
        exact ⟨_, exec_tick_of_not_two_stop_bits hph hsh h4, hrev, es, l, hev, rfl⟩

/-- Two states each other's reverse have one schedule, and stay so when both go on with the schedule `ts`. -/
theorem Reversed.with_turns {ev : List Event} {t u : State} (hr : Reversed ev t u) (ts : List Context) :
    u.turns = t.turns ∧ Reversed ev { t with turns := ts } { u with turns := ts } := by
  obtain ⟨hrev, es, l, hev, rfl⟩ := hr
  exact ⟨rfl, hrev, es, l, hev, rfl⟩

/-- A run of ticks goes through in reverse keying when it does in normal keying, and keeps the two states each other's
reverse. -/
theorem run_ticks_reversed {ev : List Event} {n : Nat} {t t' u : State} {ts : List Context} (hr : Reversed ev t u)
    (hts : t.turns = List.replicate n .tick ++ ts) (h : run n t = .next t') :
    ∃ u', run n u = .next u' ∧ Reversed ev t' u' := by
  induction n generalizing t u with
  | zero => cases h; exact ⟨u, rfl, hr⟩
  | succ n ih =>
    obtain ⟨x, hx, h⟩ := run_succ_next h
    obtain ⟨hturns, hr⟩ := hr.with_turns (List.replicate n .tick ++ ts)
    rw [step_tick hts] at hx
    obtain ⟨y, hy, hr⟩ := exec_tick_reversed hr hx
    obtain ⟨u', hu', hr⟩ := ih hr (exec_tick_turns hx) h
    exact ⟨u', (run_succ_of_tick n (hturns.trans hts) hy).trans hu', hr⟩

/-- Settles O20: the two runs begin as each other's reverse, and every tick keeps them so. -/
theorem tickTracesOfOppositePolarityAreComplements : Obligations.TickTracesOfOppositePolarityAreComplements := by
  intro n s t ts hts h
  have hr : Reversed s.ev { s with rev := some 0#1 } { s with rev := some 1#1 } :=
    ⟨rfl, [], s.lineLevel, by simp, by simp [State.reversed]⟩
  obtain ⟨u, hu, -, es, l, hev, rfl⟩ := run_ticks_reversed hr hts h
  exact ⟨_, es, hu, hev, rfl, rfl, rfl⟩

/-! ### Draining the queue -/

/-- From data bit `i` on, a frame holds the level of that bit and what follows it (R162). -/
theorem drop_asyncFrame_data (id : Byte) (rev : Flag) (sh : BitVec 3) (b : Byte) {i : Nat} (hi : i < 7) :
    (asyncFrame id rev sh b).drop (i + 1) =
      .lineSet id (dataBitLevel b i rev) :: (asyncFrame id rev sh b).drop (i + 2) := by
  interval_cases i <;> rfl

/-- After the stop level a frame holds that level once more for two stop bits, and nothing otherwise (R163). -/
theorem drop_asyncFrame_stop (id : Byte) (rev : Flag) (sh : BitVec 3) (b : Byte) :
    (asyncFrame id rev sh b).drop 9 = if sh = 4#3 then [.lineSet id (stopBitLevel rev)] else [] := rfl

theorem asyncFrame_length (id : Byte) (rev : Flag) (sh : BitVec 3) (b : Byte) :
    (asyncFrame id rev sh b).length = if sh = 4#3 then 10 else 9 := by
  rw [asyncFrame, List.length_append]
  split
  · rfl
  · rfl

/-- How many ticks the engine still needs to be idle (R165). -/
def ticksLeft (s : State) : Nat := 10 * s.qsize + ticksOfByteInFlight s

theorem ticksLeft_of_start {s : State} (hph : s.phase = .start) : ticksLeft s = 10 * s.queue.length := by
  simp [ticksLeft, State.qsize, ticksOfByteInFlight, hph]

theorem ticksLeft_of_sending {s : State} (hph : s.phase = .sending) :
    ticksLeft s = 10 * s.queue.length + (9 - s.bitIdx.toNat) := by
  simp [ticksLeft, State.qsize, ticksOfByteInFlight, hph]

theorem ticksLeft_of_stop {s : State} (hph : s.phase = .stop) : ticksLeft s = 10 * s.queue.length + 1 := by
  simp [ticksLeft, State.qsize, ticksOfByteInFlight, hph]

/-- The events of the byte in flight that are not yet on the line (R165). -/
def restOfByteInFlight (id : Byte) (rev : Flag) (sh : BitVec 3) (s : State) : List Event :=
  match s.phase with
  | .start => []
  | .sending => (asyncFrame id rev sh s.readCurByte).drop (s.bitIdx.toNat + 1)
  | .stop => (asyncFrame id rev sh s.readCurByte).drop 9

/-- The events that the ticks left put on the line: the rest of the byte in flight, and the frames of the queued bytes
(R165, R167). -/
def eventsLeft (id : Byte) (rev : Flag) (sh : BitVec 3) (s : State) : List Event :=
  restOfByteInFlight id rev sh s ++ s.queue.flatMap (asyncFrame id rev sh)

theorem eventsLeft_of_start {s : State} (id : Byte) (rev : Flag) (sh : BitVec 3) (hph : s.phase = .start) :
    eventsLeft id rev sh s = s.queue.flatMap (asyncFrame id rev sh) := by
  simp [eventsLeft, restOfByteInFlight, hph]

theorem eventsLeft_of_sending {s : State} (id : Byte) (rev : Flag) (sh : BitVec 3) (hph : s.phase = .sending) :
    eventsLeft id rev sh s =
      (asyncFrame id rev sh s.readCurByte).drop (s.bitIdx.toNat + 1) ++ s.queue.flatMap (asyncFrame id rev sh) := by
  simp [eventsLeft, restOfByteInFlight, hph]

theorem eventsLeft_of_stop {s : State} (id : Byte) (rev : Flag) (sh : BitVec 3) (hph : s.phase = .stop) :
    eventsLeft id rev sh s =
      (asyncFrame id rev sh s.readCurByte).drop 9 ++ s.queue.flatMap (asyncFrame id rev sh) := by
  simp [eventsLeft, restOfByteInFlight, hph]

/-- The engine is idle exactly when it needs no tick. -/
theorem ticksLeft_eq_zero_iff {s : State} : ticksLeft s = 0 ↔ EngineIdle s := by
  have hbit : s.bitIdx.toNat < 8 := s.bitIdx.isLt
  rw [EngineIdle]
  cases hph : s.phase with
  | start => simp [ticksLeft_of_start hph]
  | sending =>
    simp only [ticksLeft_of_sending hph, reduceCtorEq, and_false, iff_false]
    omega
  | stop => simp [ticksLeft_of_stop hph]

/-- The engine is configured, no TXASYNC holds the lock, `n` ticks are left, and they bring the history to `evs`. -/
structure Draining (id : Byte) (rev : Flag) (sh : BitVec 3) (evs : List Event) (n : Nat) (s : State) : Prop where
  config : TickConfig s id rev sh
  lockFree : s.lock = false
  ticks : ticksLeft s = n
  history : s.ev ++ eventsLeft id rev sh s = evs

section
variable {id : Byte} {rev : Flag} {sh : BitVec 3} {evs : List Event} {n : Nat} {s x : State}

/-- A tick that drives the first level left, and leaves the others. -/
theorem Draining.tick_of_drive {level : Flag → Level} (h : Draining id rev sh evs (n + 1) s)
    (hs : exec .tick s = drive level x) (hconfig : TickConfig x id rev sh) (hlock : x.lock = false) (hev : x.ev = s.ev)
    (hticks : ticksLeft s = ticksLeft x + 1)
    (hleft : eventsLeft id rev sh s = .lineSet id (level rev) :: eventsLeft id rev sh x) :
    ∃ t, exec .tick s = .next t ∧ Draining id rev sh evs n t := by
  obtain ⟨hid, hrev, hsh⟩ := hconfig
  refine ⟨_, hs.trans (drive_of_written hid hrev), ⟨hid, hrev, hsh⟩, hlock, ?_, ?_⟩
  · exact Nat.succ.inj (hticks.symm.trans h.ticks)
  · calc x.ev ++ [.lineSet id (level rev)] ++ eventsLeft id rev sh x
        = s.ev ++ eventsLeft id rev sh s := by rw [hleft, hev, List.append_assoc, List.singleton_append]
      _ = evs := h.history

/-- Each tick of the drain brings it one tick nearer to its end, along the same events (R165). -/
theorem Draining.tick (h : Draining id rev sh evs (n + 1) s) :
    ∃ t, exec .tick s = .next t ∧ Draining id rev sh evs n t := by
  obtain ⟨hid, hrev, hsh⟩ := h.config
  cases hph : s.phase with
  | start =>
    cases hq : s.queue with
    | nil =>
      have hzero : ticksLeft s = 0 := ticksLeft_eq_zero_iff.mpr ⟨hq, hph⟩
      exact absurd (h.ticks.symm.trans hzero) n.succ_ne_zero
    | cons b q =>
      have hx : (s.takeByte b q).phase = .sending := rfl
      refine h.tick_of_drive (exec_tick_of_queued hph h.lockFree hq) ⟨hid, hrev, hsh⟩ h.lockFree rfl ?_ ?_
      · rw [ticksLeft_of_start hph, ticksLeft_of_sending hx, hq]
        rfl
      · rw [eventsLeft_of_start id rev sh hph, eventsLeft_of_sending id rev sh hx, hq]
        rfl
  | sending =>
    by_cases hb : s.bitIdx.toNat < 7
    · have hx : { s with bitIdx := s.bitIdx + 1#3 }.phase = .sending := hph
      have hnext : (s.bitIdx + 1#3).toNat = s.bitIdx.toNat + 1 := by bv_omega
      refine h.tick_of_drive (exec_tick_of_bit_left hph hb) ⟨hid, hrev, hsh⟩ h.lockFree rfl ?_ ?_
      · rw [ticksLeft_of_sending hph, ticksLeft_of_sending hx, hnext]
        dsimp only
        omega
      · rw [eventsLeft_of_sending id rev sh hph, eventsLeft_of_sending id rev sh hx, hnext,
          drop_asyncFrame_data id rev sh _ hb]
        rfl
    · have hx : { s with phase := .stop }.phase = .stop := rfl
      have hlast : s.bitIdx.toNat = 7 := by bv_omega
      refine h.tick_of_drive (exec_tick_of_no_bit_left hph hb) ⟨hid, hrev, hsh⟩ h.lockFree rfl ?_ ?_
      · rw [ticksLeft_of_sending hph, ticksLeft_of_stop hx, hlast]
      · rw [eventsLeft_of_sending id rev sh hph, eventsLeft_of_stop id rev sh hx, hlast]
        rfl
  | stop =>
    have hx : { s with phase := .start }.phase = .start := rfl
    have hticks : ticksLeft s = ticksLeft { s with phase := .start } + 1 := by
      rw [ticksLeft_of_stop hph, ticksLeft_of_start hx]
    by_cases h4 : sh = 4#3
    · refine h.tick_of_drive (exec_tick_of_two_stop_bits hph (h4 ▸ hsh)) ⟨hid, hrev, hsh⟩ h.lockFree rfl hticks ?_
      rw [eventsLeft_of_stop id rev sh hph, eventsLeft_of_start id rev sh hx, drop_asyncFrame_stop, if_pos h4]
      rfl
    · refine ⟨_, exec_tick_of_not_two_stop_bits hph hsh h4, ⟨hid, hrev, hsh⟩, h.lockFree, ?_, ?_⟩
      · exact Nat.succ.inj (hticks.symm.trans h.ticks)
      · rw [← h.history, eventsLeft_of_stop id rev sh hph, eventsLeft_of_start id rev sh hx, drop_asyncFrame_stop,
          if_neg h4, List.nil_append]

/-- After `k` ticks of the drain there are `k` fewer left. -/
theorem Draining.run_ticks {k : Nat} {ts : List Context} (h : Draining id rev sh evs (n + k) s)
    (hts : s.turns = List.replicate k .tick ++ ts) :
    ∃ t, run k s = .next t ∧ Draining id rev sh evs n t ∧ t.turns = ts := by
  induction k generalizing s with
  | zero => exact ⟨s, rfl, h, hts⟩
  | succ k ih =>
    have hused : Draining id rev sh evs (n + k + 1) { s with turns := List.replicate k .tick ++ ts } :=
      ⟨⟨h.config.lineId, h.config.rev, h.config.stopHalves⟩, h.lockFree, h.ticks, h.history⟩
    obtain ⟨u, hu, hd⟩ := hused.tick
    obtain ⟨t, ht, hd, hturns⟩ := ih hd (exec_tick_turns hu)
    exact ⟨t, (run_succ_of_tick k hts hu).trans ht, hd, hturns⟩

end

/-- The frames of `q` hold ten events a byte for two stop bits, nine otherwise (R165). -/
theorem length_flatMap_asyncFrame (id : Byte) (rev : Flag) (sh : BitVec 3) (q : List Byte) :
    (q.flatMap (asyncFrame id rev sh)).length = if sh = 4#3 then 10 * q.length else 9 * q.length := by
  simp only [List.length_flatMap, asyncFrame_length, List.map_const', List.sum_replicate, smul_eq_mul]
  split <;> omega

/-- Settles O50: `10 × N` ticks are left at first, one fewer after each, and the engine is idle when none is. -/
theorem tenTicksDrainEachQueuedByte : Obligations.TenTicksDrainEachQueuedByte := by
  rintro N s ts id rev sh hconfig rfl hph hl hts
  have hd : Draining id rev sh (s.ev ++ eventsLeft id rev sh s) (10 * s.queue.length) s :=
    ⟨hconfig, hl, ticksLeft_of_start hph, rfl⟩
  rw [eventsLeft_of_start id rev sh hph] at hd
  refine ⟨?_, fun k hk => ?_⟩
  · obtain ⟨t, ht, hdone, hturns⟩ := Draining.run_ticks (n := 0) (by rwa [Nat.zero_add]) hts
    obtain ⟨hq, hstart⟩ := ticksLeft_eq_zero_iff.mp hdone.ticks
    have hev := hdone.history
    rw [eventsLeft_of_start id rev sh hstart, hq, List.flatMap_nil, List.append_nil] at hev
    exact ⟨t, ht, hq, hstart, hturns, exec_tick_of_waiting hstart (.inr hq), hev, length_flatMap_asyncFrame id rev sh _⟩
  · obtain ⟨m, hm⟩ := Nat.exists_eq_add_of_lt hk
    have hrest : 10 * s.queue.length = m + 1 + k := by omega
    rw [hrest] at hd
    rw [hrest, Nat.add_comm, List.replicate_add, List.append_assoc] at hts
    obtain ⟨u, hu, hmid, -⟩ := hd.run_ticks hts
    have hbusy : ¬ EngineIdle u := by
      rw [← ticksLeft_eq_zero_iff, hmid.ticks]
      exact m.succ_ne_zero
    exact ⟨u, hu, (not_and_or.mp hbusy).symm⟩

end Sys2Proof.Machine
end

section
/-! The opcode map as a decoder and an encoder (spec/30_encoding.md R60 to R67): the word of every instruction decodes
to it, a word that decodes is the word of what it decodes to, and the rows of the map cover the legal words once. -/

namespace Sys2Proof

/-! ### Words that decode -/

theorem decode_crcUpd (b : Byte) : decode (0x11000000#32 ||| b.setWidth 32) = .ok (.crcUpd b) := by
  unfold decode
  rw [opcodeField_or (by decide)]
  exact checked_or_setWidth .crcUpd b (by decide) (by decide) (by decide) (by decide)

theorem decode_getBaud : decode 0x22000000#32 = .ok .getBaud := by decide

theorem decode_setCksum (f : Flag) : decode (0x23000000#32 ||| f.setWidth 32) = .ok (.setCksum f) := by
  unfold decode
  rw [opcodeField_or (by decide)]
  exact checked_or_setWidth .setCksum f (by decide) (by decide) (by decide) (by decide)

theorem decode_setRev (f : Flag) : decode (0x26000000#32 ||| f.setWidth 32) = .ok (.setRev f) := by
  unfold decode
  rw [opcodeField_or (by decide)]
  exact checked_or_setWidth .setRev f (by decide) (by decide) (by decide) (by decide)

theorem decode_setEcho (f : Flag) : decode (0x27000000#32 ||| f.setWidth 32) = .ok (.setEcho f) := by
  unfold decode
  rw [opcodeField_or (by decide)]
  exact checked_or_setWidth .setEcho f (by decide) (by decide) (by decide) (by decide)

theorem decode_msgPut (b : Byte) : decode (0x31000000#32 ||| b.setWidth 32) = .ok (.msgPut b) := by
  unfold decode
  rw [opcodeField_or (by decide)]
  exact checked_or_setWidth .msgPut b (by decide) (by decide) (by decide) (by decide)

theorem decode_msgLen : decode 0x32000000#32 = .ok .msgLen := by decide

theorem decode_txb (b : Byte) : decode (0x40000000#32 ||| b.setWidth 32) = .ok (.txb b) := by
  unfold decode
  rw [opcodeField_or (by decide)]
  exact checked_or_setWidth .txb b (by decide) (by decide) (by decide) (by decide)

theorem decode_txMsg : decode 0x41000000#32 = .ok .txMsg := by decide

theorem decode_txAsync : decode 0x50000000#32 = .ok .txAsync := by decide

theorem decode_bufSz : decode 0x51000000#32 = .ok .bufSz := by decide

/-- Settles O7: each instruction's word, by the lemma that decodes it. -/
theorem decodeOfEncode : Obligations.DecodeOfEncode := by
  refine ⟨fun i hi => ?_, rfl⟩
  cases i with
  | crcInit => exact ⟨_, rfl, decode_crcInit⟩
  | crcUpd b => exact ⟨_, rfl, decode_crcUpd b⟩
  | crcRd => exact ⟨_, rfl, decode_crcRd⟩
  | setLine b => exact ⟨_, rfl, decode_setLine b⟩
  | setBaud r => exact ⟨_, rfl, decode_setBaud r⟩
  | getBaud => exact ⟨_, rfl, decode_getBaud⟩
  | setCksum f => exact ⟨_, rfl, decode_setCksum f⟩
  | getCksum => exact ⟨_, rfl, decode_getCksum⟩
  | setStop h => exact ⟨_, rfl, decode_setStop h⟩
  | setRev f => exact ⟨_, rfl, decode_setRev f⟩
  | setEcho f => exact ⟨_, rfl, decode_setEcho f⟩
  | msgClr => exact ⟨_, rfl, decode_msgClr⟩
  | msgPut b => exact ⟨_, rfl, decode_msgPut b⟩
  | msgLen => exact ⟨_, rfl, decode_msgLen⟩
  | msgGet j => exact ⟨_, rfl, decode_msgGet j⟩
  | txb b => exact ⟨_, rfl, decode_txb b⟩
  | txMsg => exact ⟨_, rfl, decode_txMsg⟩
  | txAsync => exact ⟨_, rfl, decode_txAsync⟩
  | bufSz => exact ⟨_, rfl, decode_bufSz⟩
  | tick => cases hi

/-- Settles O9: the words are concrete, so the decoder computes each answer. -/
theorem wordsOfTheOpcodeMap : Obligations.WordsOfTheOpcodeMap := 
  ⟨by decide, by decide, by decide, by decide, by decide, decode_txAsync⟩

/-! ### The word of what a word decodes to -/

/-- The bits of the operand field that a format leaves free. -/
def Format.operandBits : Format → Nat
  | .N => 0
  | .B => 8
  | .F => 1
  | .H => 3
  | .R => 24
  | .I => 16

/-- Every bit of the operand field above a format's operand must be zero (R61). -/
theorem mustBeZero_above_operand (f : Format) :
    f.operandBits ≤ 24 ∧ ∀ i, i < 24 → f.operandBits ≤ i → f.mustBeZero.getLsbD i = true := by
  cases f <;> decide

/-- A word that its format admits is its opcode, shifted, with its operand zero-extended (R62). -/
theorem eq_opcode_or_operand {f : Format} {w : Word} {op : Byte} (hop : opcodeField w = op)
    (h : w &&& f.mustBeZero = 0#32) : w = op.setWidth 32 <<< 24 ||| (w.extractLsb' 0 f.operandBits).setWidth 32 := by
  obtain ⟨hn, hm⟩ := mustBeZero_above_operand f
  calc w = (opcodeField w).setWidth 32 <<< 24 ||| (fieldR w).setWidth 32 := word_eq_opcode_or_fieldR w
    _ = op.setWidth 32 <<< 24 ||| (w.extractLsb' 0 f.operandBits).setWidth 32 := by
      rw [hop, fieldR_of_mustBeZero h hn hm]

/-- If `i` has the word `w` should be by its opcode and operand, then `w` is the word of what `checked` answers. -/
theorem encode_of_checked {f : Format} {w : Word} {op : Byte} {i j : Instr} (hop : opcodeField w = op)
    (hi : encode i = some (op.setWidth 32 <<< 24 ||| (w.extractLsb' 0 f.operandBits).setWidth 32))
    (h : checked f w i = .ok j) : encode j = some w := by
  obtain ⟨hz, rfl⟩ := checked_ok h
  rw [hi, ← eq_opcode_or_operand hop hz]

/-- The same for an instruction without operand: its word is its opcode alone. -/
theorem encode_of_checked_noOperand {w : Word} {op : Byte} {i j : Instr} (hop : opcodeField w = op)
    (hi : encode i = some (op.setWidth 32 <<< 24)) (h : checked .N w i = .ok j) : encode j = some w := by
  have hnone : (w.extractLsb' 0 Format.N.operandBits).setWidth 32 = 0#32 :=
    congrArg (BitVec.setWidth 32) (BitVec.eq_nil (w.extractLsb' 0 0))
  refine encode_of_checked hop ?_ h
  rw [hi, hnone, BitVec.or_zero]

/-- A word that decodes is the word of what it decodes to (R64). -/
theorem encode_of_decode {w : Word} {i : Instr} (h : decode w = .ok i) : encode i = some w := by
  unfold decode at h
  split at h
  case h_20 => cases h
  case h_1 hop | h_3 hop | h_6 hop | h_8 hop | h_12 hop | h_14 hop | h_17 hop | h_18 hop | h_19 hop =>
    exact encode_of_checked_noOperand hop rfl h
  all_goals
    next hop => exact encode_of_checked hop rfl h

/-- Settles O8: the one instruction without a word is TICK. -/
theorem encodeOfDecode : Obligations.EncodeOfDecode := by
  intro w i h
  have he := encode_of_decode h
  refine ⟨he, ?_⟩
  cases i with
  | tick => cases he
  | _ => rfl

/-! ### The rows of the opcode map -/

/-- The opcode bits of a word, left in place. -/
theorem and_opcodeMask (w : Word) : w &&& 0xFF000000#32 = (opcodeField w).setWidth 32 <<< 24 := by
  unfold opcodeField
  ext i hi
  interval_cases i <;> simp

/-- The opcode of a row's `match`. -/
theorem opcodeField_value (r : OpcodeRow) : opcodeField r.value = r.op := by
  unfold opcodeField OpcodeRow.value
  ext i hi
  interval_cases i <;> simp

/-- A mask holds the opcode bits and the must-be-zero bits, which are apart. -/
theorem mustBeZero_mask (f : Format) :
    opcodeField (0xFF000000#32 ||| f.mustBeZero) = BitVec.allOnes 8 ∧
      (0xFF000000#32 ||| f.mustBeZero) &&& f.mustBeZero = f.mustBeZero ∧ 0xFF000000#32 &&& f.mustBeZero = 0#32 := by
  cases f <;> decide

/-- A row covers the words of its opcode that its format admits (R64). -/
theorem covers_iff (r : OpcodeRow) (w : Word) :
    w &&& r.mask = r.value ↔ r.op = opcodeField w ∧ w &&& r.format.mustBeZero = 0#32 := by
  obtain ⟨hop, hself, hapart⟩ := mustBeZero_mask r.format
  have hvalue : r.value = r.value &&& 0xFF000000#32 := by rw [and_opcodeMask, opcodeField_value, OpcodeRow.value]
  constructor
  · intro h
    constructor
    · calc r.op = opcodeField (w &&& r.mask) := by rw [h, opcodeField_value]
        _ = opcodeField w &&& opcodeField r.mask := BitVec.extractLsb'_and
        _ = opcodeField w := by rw [OpcodeRow.mask, hop, BitVec.and_allOnes]
    · calc w &&& r.format.mustBeZero = w &&& r.mask &&& r.format.mustBeZero := by
            rw [OpcodeRow.mask, BitVec.and_assoc, hself]
        _ = 0#32 := by rw [h, hvalue, BitVec.and_assoc, hapart, BitVec.and_zero]
  · rintro ⟨ho, hz⟩
    rw [OpcodeRow.mask, BitVec.and_or_distrib_left, hz, BitVec.or_zero, and_opcodeMask, ← ho, OpcodeRow.value]

/-- No two rows have one opcode. -/
theorem opcodeMap_op_injective {r r' : OpcodeRow} (hr : r ∈ opcodeMap) (hr' : r' ∈ opcodeMap) (h : r.op = r'.op) :
    r = r' := by
  have hnodup : (opcodeMap.map OpcodeRow.op).Nodup := by decide
  exact List.inj_on_of_nodup_map hnodup hr hr' h

/-- A word is legal exactly when it is not illegal. -/
theorem decode_ok_iff (w : Word) : (∃ i, decode w = .ok i) ↔ ¬ ∃ why, decode w = .illegal why := by
  cases decode w <;> simp

/-- Settles O6: the legal words are those that R65 does not make illegal, and a covered word has its row's opcode. -/
theorem opcodeRowsCoverTheLegalWordsOnce : Obligations.OpcodeRowsCoverTheLegalWordsOnce := by
  constructor
  · intro w
    simp only [decode_ok_iff, decode_illegal_iff, covers_iff, not_or, not_forall, not_exists, not_and, not_not]
    constructor
    · rintro ⟨⟨r, hr, hop⟩, hadmits⟩
      exact ⟨r, hr, hop, hadmits r hr hop⟩
    · rintro ⟨r, hr, hop, hz⟩
      refine ⟨⟨r, hr, hop⟩, fun r' hr' hop' => ?_⟩
      rwa [opcodeMap_op_injective hr' hr (hop'.trans hop.symm)]
  · intro r hr r' hr' w h h'
    obtain ⟨hop, -⟩ := (covers_iff r w).mp h
    obtain ⟨hop', -⟩ := (covers_iff r' w).mp h'
    exact opcodeMap_op_injective hr hr' (hop.trans hop'.symm)

end Sys2Proof
end

section
/-! What a step can do: every change that a command, a micro-step or a TICK makes to the state, said once for each of
the three, and the cases of a step. The rules of the whole machine below are case splits over these changes. -/

namespace Sys2Proof.Machine

/-! ### The changes -/

/-- The state with other values of the fields that SETBAUD, SETCKSUM, SETSTOP, SETREV and SETECHO write. -/
def State.configure (s : State) (timestep : Option (BitVec 32)) (cksum : Option Flag) (stopHalves : Option (BitVec 3))
    (rev echo : Option Flag) : State :=
  { s with timestep := timestep, cksum := cksum, stopHalves := stopHalves, rev := rev, echo := echo }

/-- What a command leaves to run after it has appended to the message: nothing new (MSG.PUT), the bytes of a message of
`n` bytes to transmit (TXMSG) or to queue (TXASYNC). -/
inductive Leaves (i : Instr) (before : List MicroStep) (n : Nat) : List MicroStep → Prop
  | same : Leaves i before n before
  | sync : Leaves i before n (txMsgRest n)
  | async (hi : i = .txAsync) : Leaves i before n (txAsyncRest n)

/-- The changes that a host command makes, by the family of the command. -/
inductive CommandEffect (s : State) (i : Instr) : State → Prop
  /-- CRC.INIT and CRC.UPD (40_crc.md R83, R84) -/
  | checksum (c : BitVec 16) (hc : i.isConfig = false) (hr : i.returnsWord = false) :
      CommandEffect s i { s with crc := c }
  /-- the six commands with a response word (30_encoding.md R63) -/
  | answer (w : Word) (hr : i.returnsWord = true) : CommandEffect s i (s.respond w)
  /-- SETLINE (42_config.md R102) -/
  | setLine (b : Byte) (hi : i = .setLine b) : CommandEffect s i ({ s with lineId := some b }.emit (.lineMode b))
  /-- the other setters of the Line Configuration (42_config.md R104 to R113) -/
  | configure (timestep : Option (BitVec 32)) (cksum : Option Flag) (stopHalves : Option (BitVec 3))
      (rev echo : Option Flag)
      (hts : timestep = s.timestep ∨ ∃ r, baudLegal r = true ∧ timestep = some (timestepOf r))
      (hsh : stopHalves = s.stopHalves ∨ ∃ h, stopLegal h = true ∧ stopHalves = some h)
      (hr : i.returnsWord = false) : CommandEffect s i (s.configure timestep cksum stopHalves rev echo)
  /-- MSG.CLR (43_message.md R121) -/
  | clear (hc : i.isConfig = false) (hr : i.returnsWord = false) : CommandEffect s i { s with msgLen := 0#16 }
  /-- MSG.PUT, TXMSG and TXASYNC (43_message.md R122, R128) -/
  | append (bs : List Byte) (ms : List MicroStep) (hroom : s.hasRoom bs.length = true)
      (hms : Leaves i s.pending (s.appendBytes bs).msgLen.toNat ms) (hc : i.isConfig = false)
      (hr : i.returnsWord = false) : CommandEffect s i ((s.appendBytes bs).leave ms)
  /-- TXB (44_sync_tx.md R137) -/
  | transmit (b id : Byte) (l : Level) (hc : i.isConfig = false) (hr : i.returnsWord = false) :
      CommandEffect s i ((s.leave (txbRest (.operand b))).driveTo id l)

/-- The changes that a micro-step of TXB, TXMSG or TXASYNC makes (44_sync_tx.md R137, 45_async_tx.md R152). -/
inductive MicroEffect (s : State) : MicroStep → State → Prop
  /-- a level on the line -/
  | drive {m : MicroStep} (id : Byte) (l : Level) (hm : m.isSync = true) : MicroEffect s m (s.driveTo id l)
  /-- delays or the echo, or nothing while the echo is off -/
  | emit {m : MicroStep} (es : List Event) (hes : ∀ id l, Event.lineSet id l ∉ es) (hm : m.isSync = true) :
      MicroEffect s m { s with ev := s.ev ++ es }
  | setLock : MicroEffect s .setLock s.holdLock
  | push (j : Nat) (b : Byte) (hb : s.memRead j = some b) : MicroEffect s (.push j) (s.push b)
  | clearLock : MicroEffect s .clearLock s.releaseLock

/-- The changes that a TICK makes (45_async_tx.md R161 to R163). -/
inductive TickEffect (s : State) : State → Prop
  /-- nothing, in phase START -/
  | wait (hph : s.phase = .start) : TickEffect s s
  /-- a byte popped, and its start level driven -/
  | pop (b : Byte) (q : List Byte) (id : Byte) (l : Level) (hph : s.phase = .start) (hl : s.lock = false)
      (hq : s.queue = b :: q) : TickEffect s ((s.takeByte b q).driveTo id l)
  /-- the next level of the byte in flight -/
  | send (i : BitVec 3) (ph : Phase) (id : Byte) (l : Level) (hph : s.phase ≠ .start) :
      TickEffect s ({ s with bitIdx := i, phase := ph }.driveTo id l)
  /-- the byte in flight done, with no level driven -/
  | finish (hph : s.phase ≠ .start) : TickEffect s { s with phase := .start }

/-! ### Each operation makes one of its changes -/

/-- Everything a host command can do. -/
theorem exec_command_next {i : Instr} {s t : State} (hi : WellFormed i) (h : exec i s = .next t) :
    CommandEffect s i t := by
  cases i with
  | crcInit => cases h; exact .checksum _ rfl rfl
  | crcUpd b => cases h; exact .checksum _ rfl rfl
  | crcRd => cases h; exact .answer _ rfl
  | setLine b => cases h; exact .setLine b rfl
  | setBaud r =>
    obtain ⟨hr, rfl⟩ := execSetBaud_next h
    exact .configure (some (timestepOf r)) s.cksum s.stopHalves s.rev s.echo (.inr ⟨r, hr, rfl⟩) (.inl rfl) rfl
  | getBaud => obtain ⟨ts, -, rfl⟩ := execGetBaud_next h; exact .answer _ rfl
  | setCksum f => cases h; exact .configure s.timestep (some f) s.stopHalves s.rev s.echo (.inl rfl) (.inl rfl) rfl
  | getCksum => obtain ⟨f, -, rfl⟩ := execGetCksum_next h; exact .answer _ rfl
  | setStop n =>
    obtain ⟨hn, rfl⟩ := execSetStop_next h
    exact .configure s.timestep s.cksum (some n) s.rev s.echo (.inl rfl) (.inr ⟨n, hn, rfl⟩) rfl
  | setRev f => cases h; exact .configure s.timestep s.cksum s.stopHalves (some f) s.echo (.inl rfl) (.inl rfl) rfl
  | setEcho f => cases h; exact .configure s.timestep s.cksum s.stopHalves s.rev (some f) (.inl rfl) (.inl rfl) rfl
  | msgClr => cases h; exact .clear rfl rfl
  | msgPut b =>
    obtain ⟨hr, rfl⟩ := execMsgPut_next h
    exact .append [b] s.pending hr .same rfl rfl
  | msgLen => cases h; exact .answer _ rfl
  | msgGet j => obtain ⟨-, b, -, rfl⟩ := execMsgGet_next h; exact .answer _ rfl
  | txb b => obtain ⟨id, rev, -, -, rfl⟩ := execTxb_next h; exact .transmit b _ _ rfl rfl
  | txMsg =>
    obtain ⟨mode, cs, -, hr, -, rfl⟩ := execTxMsg_next h
    exact .append cs _ hr .sync rfl rfl
  | txAsync =>
    obtain ⟨mode, cs, -, hr, -, rfl⟩ := execTxAsync_next h
    exact .append cs _ hr (.async rfl) rfl rfl
  | bufSz => cases h; exact .answer _ rfl
  | tick => cases hi

/-- Everything a micro-step can do. -/
theorem execMicro_next {m : MicroStep} {s t : State} (h : execMicro m s = .next t) : MicroEffect s m t := by
  cases m with
  | driveStart => obtain ⟨id, rev, -, -, rfl⟩ := drive_next h; exact .drive id _ rfl
  | driveData source k => obtain ⟨id, rev, b, -, -, -, rfl⟩ := microDriveData_next h; exact .drive id _ rfl
  | holdBit =>
    obtain ⟨ts, -, rfl⟩ := microHoldBit_next h
    have hes := MicroEffect.emit (s := s) (m := .holdBit) [.delay ts.toNat, .delay ts.toNat] (by simp) rfl
    simpa [State.emit] using hes
  | echo source =>
    obtain ⟨f, -, ⟨-, b, -, rfl⟩ | ⟨-, rfl⟩⟩ := microEcho_next h
    · exact .emit [.echo b] (by simp) rfl
    · simpa using MicroEffect.emit (s := t) (m := .echo source) [] (by simp) rfl
  | driveStop => obtain ⟨id, rev, -, -, rfl⟩ := drive_next h; exact .drive id _ rfl
  | holdStop =>
    obtain ⟨sh, ts, -, -, rfl⟩ := microHoldStop_next h
    have hes := MicroEffect.emit (s := s) (m := .holdStop) [.delay (stopDelay sh ts), .delay (stopDelay sh ts)]
      (by simp) rfl
    simpa [State.emit] using hes
  | setLock => cases h; exact .setLock
  | push j => obtain ⟨b, hb, rfl⟩ := microPush_next h; exact .push j b hb
  | clearLock => cases h; exact .clearLock

/-- Everything a TICK can do. -/
theorem exec_tick_next {s t : State} (h : exec .tick s = .next t) : TickEffect s t := by
  obtain ⟨hph, h⟩ | ⟨hph, h⟩ | ⟨hph, h⟩ := execTick_next h
  · obtain ⟨-, rfl⟩ | ⟨b, q, id, rev, hl, hq, -, -, rfl⟩ := tickStart_next h
    · exact .wait hph
    · exact .pop b q id _ hph hl hq
  · obtain ⟨id, rev, -, -, ⟨-, rfl⟩ | ⟨-, rfl⟩⟩ := tickSending_next h
    · exact .send _ s.phase id _ (by simp [hph])
    · exact .send s.bitIdx _ id _ (by simp [hph])
  · obtain ⟨sh, -, ⟨-, id, rev, -, -, rfl⟩ | ⟨-, rfl⟩⟩ := tickStop_next h
    · exact .send s.bitIdx _ id _ (by simp [hph])
    · exact .finish (by simp [hph])

/-- The state with the schedule `ts` left. -/
def State.scheduled (s : State) (ts : List Context) : State := { s with turns := ts }

/-- Everything a step can do: a TICK when one is scheduled, and otherwise the HOST's next micro-step, its next command,
or nothing. -/
inductive StepEffect (s t : State) : Prop
  | tick (ts : List Context) (hts : s.turns = .tick :: ts) (h : TickEffect (s.scheduled ts) t)
  | micro (ts : List Context) (m : MicroStep) (ms : List MicroStep) (hts : s.turns.head? ≠ some .tick)
      (hp : s.pending = m :: ms) (h : MicroEffect ((s.scheduled ts).leave ms) m t)
  | command (ts : List Context) (w : Word) (ws : List Word) (i : Instr) (hts : s.turns.head? ≠ some .tick)
      (hp : s.pending = []) (hw : s.port = w :: ws) (hd : decode w = .ok i)
      (h : CommandEffect { s.scheduled ts with port := ws } i t)
  | idle (ts : List Context) (hts : s.turns.head? ≠ some .tick) (hp : s.pending = []) (hw : s.port = [])
      (h : t = s.scheduled ts)

theorem step_effect {s t : State} (h : step s = .next t) : StepEffect s t := by
  obtain ⟨ts, hts, h⟩ | ⟨ts, hts, h⟩ := step_next h
  · exact .tick ts hts (exec_tick_next h)
  · have hhead : s.turns.head? ≠ some .tick := by
      obtain hts | ⟨hts, -⟩ := hts <;> simp [hts]
    obtain ⟨m, ms, hp, h⟩ | ⟨w, ws, i, hp, hw, hd, h⟩ | ⟨hp, hw, h⟩ := hostTurn_next h
    · exact .micro ts m ms hhead hp (execMicro_next h)
    · exact .command ts w ws i hhead hp hw hd (exec_command_next (encodeOfDecode w i hd).2 h)
    · exact .idle ts hhead hp hw h

end Sys2Proof.Machine
end

section
/-! Rules of the whole machine that follow from the changes a step can make: who writes the transmission phase, the
response words, the event history, the queue, the bytes of the message; and the step by the schedule. -/

namespace Sys2Proof.Machine

/-! ### Reset, the step and the schedule -/

/-- Settles O1: each row of the table is the definition of `State.reset`; no byte is below length 0. -/
theorem resetLeavesTheSpecsValues : Obligations.ResetLeavesTheSpecsValues := by
  have hempty : State.reset.message = some [] := message_of_msgLen_zero rfl
  exact ⟨rfl, rfl, rfl, rfl, rfl, rfl, rfl, rfl, rfl, memRead_of_message hempty, rfl, rfl, rfl, rfl, rfl, rfl, rfl,
    rfl, rfl⟩

/-- A step of the HOST that takes a legal word runs its instruction. -/
theorem step_of_legal {s : State} {w : Word} {ws : List Word} {ts : List Context} {i : Instr} (hp : s.pending = [])
    (hw : s.port = w :: ws) (hd : decode w = .ok i) (hts : s.turns = .host :: ts) :
    step s = exec i { s with port := ws, turns := ts } := by
  rw [step_host hts, hostTurn_issue (by exact hp) (by exact hw), issue_of_decode hd]

/-- A run whose first step issues a legal word. -/
theorem run_succ_of_command {s t : State} {w : Word} {ws : List Word} {ts : List Context} {i : Instr} (n : Nat)
    (hp : s.pending = []) (hw : s.port = w :: ws) (hd : decode w = .ok i) (hts : s.turns = .host :: ts)
    (h : exec i { s with port := ws, turns := ts } = .next t) : run (n + 1) s = run n t :=
  run_succ_of_step n ((step_of_legal hp hw hd hts).trans h)

/-- Settles O3: the HOST issues the word, scheduled or past the end of the schedule. -/
theorem stepRunsTheDecodedCommand : Obligations.StepRunsTheDecodedCommand := by
  refine fun s w ws i hp hw hd => ⟨fun ts hts => step_of_legal hp hw hd hts, fun hts => ?_⟩
  rw [step_unscheduled hts, hostTurn_issue hp hw, issue_of_decode hd]

/-- Settles O4: a scheduled TICK first, then the HOST's turn with a micro-step left or with nothing to do. -/
theorem stepFollowsTheSchedule : Obligations.StepFollowsTheSchedule := by
  refine ⟨fun s ts hts => step_tick hts, fun s m ms hp => ⟨fun ts hts => ?_, fun hts => ?_⟩,
    fun s hp hw => ⟨fun ts hts => ?_, fun hts => ?_⟩⟩
  · rw [step_host hts, hostTurn_micro (by exact hp)]
    rfl
  · rw [step_unscheduled hts, hostTurn_micro hp]
    rfl
  · rw [step_host hts, hostTurn_idle (by exact hp) (by exact hw)]
  · rw [step_unscheduled hts, hostTurn_idle hp hw]

/-! ### What each context leaves alone -/

/-- Settles O53: only a tick pops, sends or finishes a byte. -/
theorem onlyTicksWriteTheTransmissionPhase : Obligations.OnlyTicksWriteTheTransmissionPhase := by
  intro s t h hhead
  cases step_effect h with
  | tick ts hts => simp [hts] at hhead
  | micro ts m ms _ _ h => cases h <;> simp [State.scheduled]
  | command ts w ws i _ _ _ _ h => cases h <;> simp [State.scheduled, State.configure]
  | idle ts _ _ _ h => exact h ▸ ⟨rfl, rfl, rfl⟩

/-- Settles O54: a tick waits, pops, sends a level or finishes, and of these a pop and a level emit. -/
theorem tickLeavesTheHostSideAlone : Obligations.TickLeavesTheHostSideAlone := by
  intro s t h
  cases exec_tick_next h with
  | wait => exact ⟨rfl, fun _ => rfl, .inl rfl⟩
  | pop b q id l => exact ⟨rfl, fun _ => rfl, .inr ⟨id, l, rfl, rfl⟩⟩
  | send i ph id l => exact ⟨rfl, fun _ => rfl, .inr ⟨id, l, rfl, rfl⟩⟩
  | finish => exact ⟨rfl, fun _ => rfl, .inl rfl⟩

/-- Settles O28: the commands of the family answer, store the line, or store another field. -/
theorem configCommandsLeaveTheRestAlone : Obligations.ConfigCommandsLeaveTheRestAlone := by
  intro i s t hi h
  have hcommand : WellFormed i := by
    cases i with
    | tick => cases hi
    | _ => rfl
  cases exec_command_next hcommand h with
  | answer w => exact ⟨rfl, rfl, fun _ => rfl, rfl, rfl, rfl, rfl, rfl, rfl, rfl, fun _ => rfl⟩
  | setLine b hset => exact ⟨rfl, rfl, fun _ => rfl, rfl, rfl, rfl, rfl, rfl, rfl, rfl, fun hne => absurd hset (hne b)⟩
  | configure => exact ⟨rfl, rfl, fun _ => rfl, rfl, rfl, rfl, rfl, rfl, rfl, rfl, fun _ => rfl⟩
  | checksum c hc | clear hc | append bs ms hroom hms hc | transmit b id l hc => simp [hc] at hi

/-- A micro-step gives no response word. -/
theorem MicroEffect.responses {m : MicroStep} {s t : State} (h : MicroEffect s m t) : t.responses = s.responses := by
  cases h <;> simp

/-- A TICK gives no response word. -/
theorem TickEffect.responses {s t : State} (h : TickEffect s t) : t.responses = s.responses := by
  cases h <;> rfl

/-- A command answers once and changes nothing else, or gives no response word. -/
theorem CommandEffect.responses {i : Instr} {s t : State} (h : CommandEffect s i t) :
    (i.returnsWord = true → ∃ w, t = { s with responses := s.responses ++ [w] }) ∧
      (i.returnsWord = false → t.responses = s.responses) := by
  cases h with
  | answer w hr => exact ⟨fun _ => ⟨w, rfl⟩, by simp [hr]⟩
  | setLine b hi => subst hi; exact ⟨nofun, fun _ => rfl⟩
  | append bs ms _ _ _ hr => simp [hr]
  | checksum c _ hr | configure _ _ _ _ _ _ _ hr | clear _ hr | transmit b id l _ hr =>
    exact ⟨by simp [hr], fun _ => rfl⟩

/-- Settles O55: each operation makes one of its changes, and only that of a reader responds. -/
theorem readersAnswerOnceAndChangeNothing : Obligations.ReadersAnswerOnceAndChangeNothing := by
  refine ⟨fun i s t h => ?_, fun m s t h => (execMicro_next h).responses⟩
  by_cases hi : WellFormed i
  · exact (exec_command_next hi h).responses
  · cases i with
    | tick => exact ⟨nofun, fun _ => (exec_tick_next h).responses⟩
    | _ => exact absurd rfl hi

/-! ### The event history -/

/-- A step from `s` to `t` appends one LINE_SET, to the level the line is left at, or no LINE_SET with the line left as
it was. -/
def LineFollows (s t : State) : Prop :=
  ∃ es, t.ev = s.ev ++ es ∧
    ((∃ id l, es = [.lineSet id l] ∧ t.lineLevel = some l) ∨
      ((∀ id l, Event.lineSet id l ∉ es) ∧ t.lineLevel = s.lineLevel))

theorem lineFollows_of_drive {s t : State} (id : Byte) (l : Level) (hev : t.ev = s.ev ++ [.lineSet id l])
    (hl : t.lineLevel = some l) : LineFollows s t :=
  ⟨[.lineSet id l], hev, .inl ⟨id, l, rfl, hl⟩⟩

theorem lineFollows_of_quiet {s t : State} (hev : t.ev = s.ev) (hl : t.lineLevel = s.lineLevel) : LineFollows s t :=
  ⟨[], by simp [hev], .inr ⟨by simp, hl⟩⟩

theorem TickEffect.lineFollows {s t : State} (h : TickEffect s t) : LineFollows s t := by
  cases h with
  | wait => exact lineFollows_of_quiet rfl rfl
  | pop b q id l => exact lineFollows_of_drive id l rfl rfl
  | send i ph id l => exact lineFollows_of_drive id l rfl rfl
  | finish => exact lineFollows_of_quiet rfl rfl

theorem MicroEffect.lineFollows {m : MicroStep} {s t : State} (h : MicroEffect s m t) : LineFollows s t := by
  cases h with
  | drive id l => exact lineFollows_of_drive id l rfl rfl
  | emit es hes => exact ⟨es, rfl, .inr ⟨hes, rfl⟩⟩
  | setLock => exact lineFollows_of_quiet rfl rfl
  | push j b => exact lineFollows_of_quiet (by simp) (by simp)
  | clearLock => exact lineFollows_of_quiet rfl rfl

theorem CommandEffect.lineFollows {i : Instr} {s t : State} (h : CommandEffect s i t) : LineFollows s t := by
  cases h with
  | checksum => exact lineFollows_of_quiet rfl rfl
  | answer => exact lineFollows_of_quiet rfl rfl
  | setLine b => exact ⟨[.lineMode b], rfl, .inr ⟨by simp, rfl⟩⟩
  | configure => exact lineFollows_of_quiet rfl rfl
  | clear => exact lineFollows_of_quiet rfl rfl
  | append bs ms => exact lineFollows_of_quiet (by simp) (by simp)
  | transmit b id l => exact lineFollows_of_drive id l rfl rfl

/-- Settles O56: every change of a step appends its events and leaves the line at the level it drives. -/
theorem historyOnlyGrowsAndTheLineFollows : Obligations.HistoryOnlyGrowsAndTheLineFollows := by
  intro s t h
  cases step_effect h with
  | tick ts _ h => exact h.lineFollows
  | micro ts m ms _ _ h => exact h.lineFollows
  | command ts w ws i _ _ _ _ h => exact h.lineFollows
  | idle ts _ _ _ h => exact h ▸ lineFollows_of_quiet rfl rfl

/-! ### The bytes of the message -/

/-- A command writes no byte below the length: it appends (20_memory.md R41). -/
theorem CommandEffect.memLookup_below {i : Instr} {s t : State} (h : CommandEffect s i t) {a : Nat}
    (ha : a < s.msgLen.toNat) : memLookup t.msg a = memLookup s.msg a := by
  cases h with
  | append bs ms hroom => exact memLookup_appendBytes_lt s bs (hasRoom_lt hroom) ha
  | _ => rfl

theorem MicroEffect.msg {m : MicroStep} {s t : State} (h : MicroEffect s m t) : t.msg = s.msg := by
  cases h <;> simp

theorem TickEffect.msg {s t : State} (h : TickEffect s t) : t.msg = s.msg := by
  cases h <;> rfl

/-- Settles O37: commands append, and nothing else writes `MSG`. -/
theorem noStepWritesBelowTheLength : Obligations.NoStepWritesBelowTheLength := by
  intro s t h a ha
  cases step_effect h with
  | tick ts _ h => rw [h.msg]; rfl
  | micro ts m ms _ _ h => rw [h.msg]; rfl
  | command ts w ws i _ _ _ _ h => exact h.memLookup_below ha
  | idle ts _ _ _ h => rw [h]; rfl

/-! ### Where the HOST stands -/

theorem pushesFrom_of_lt {j n : Nat} (h : j < n) : pushesFrom j n = .push j :: pushesFrom (j + 1) n := by
  obtain ⟨k, rfl⟩ := Nat.exists_eq_add_of_lt h
  rw [pushesFrom, pushesFrom, show j + k + 1 - j = k + 1 by omega, show j + k + 1 - (j + 1) = k by omega,
    List.range'_succ, List.map_cons, List.cons_append]

theorem pushesFrom_self (n : Nat) : pushesFrom n n = [.clearLock] := by simp [pushesFrom]

theorem txAsyncRest_eq (n : Nat) : txAsyncRest n = .setLock :: pushesFrom 0 n := by
  rw [txAsyncRest, pushesFrom, Nat.sub_zero, List.range_eq_range']
  rfl

/-- The next micro-step belongs to TXB or TXMSG, and the lock is free; or it is the lock, a push or the unlock of a
TXASYNC, and the lock is held at the last two (10_state.md R31). -/
theorem HostPosition.next_micro {s : State} {m : MicroStep} {ms : List MicroStep} (h : HostPosition s)
    (hp : s.pending = m :: ms) :
    (s.lock = false ∧ ∀ m' ∈ m :: ms, m'.isSync = true ∧ ∀ j, m'.byteSource = some (.message j) → j < s.msgLen.toNat) ∨
      (m = .setLock ∧ ms = pushesFrom 0 s.msgLen.toNat) ∨
      (s.lock = true ∧ ∃ j, j < s.msgLen.toNat ∧ m = .push j ∧ ms = pushesFrom (j + 1) s.msgLen.toNat) ∨
      (s.lock = true ∧ m = .clearLock ∧ ms = []) := by
  obtain ⟨hl, hsync⟩ | ⟨-, hrest⟩ | ⟨hl, j, hj, hrest⟩ := h
  · exact .inl ⟨hl, hp ▸ hsync⟩
  · rw [hp, txAsyncRest_eq] at hrest
    exact .inr (.inl (List.cons.inj hrest))
  · obtain hj | rfl := Nat.lt_or_eq_of_le hj
    · rw [hp, pushesFrom_of_lt hj] at hrest
      exact .inr (.inr (.inl ⟨hl, j, hj, List.cons.inj hrest⟩))
    · rw [hp, pushesFrom_self] at hrest
      exact .inr (.inr (.inr ⟨hl, List.cons.inj hrest⟩))

/-- Between commands the lock is free. -/
theorem HostPosition.lock_free {s : State} (h : HostPosition s) (hp : s.pending = []) : s.lock = false := by
  obtain ⟨hl, -⟩ | ⟨hl, -⟩ | ⟨-, j, -, hrest⟩ := h
  · exact hl
  · exact hl
  · simp [hp, pushesFrom] at hrest

/-! ### The queue -/

theorem CommandEffect.queue {i : Instr} {s t : State} (h : CommandEffect s i t) : t.queue = s.queue := by
  cases h <;> simp [State.configure]

/-- A tick loses only the oldest byte, to `cur_byte`, and only with the lock free (45_async_tx.md R161). -/
theorem TickEffect.queue {s t : State} (h : TickEffect s t) :
    t.queue = s.queue ∨ (s.lock = false ∧ ∃ b, s.queue = b :: t.queue ∧ t.curByte = some b) := by
  cases h with
  | pop b q id l _ hl hq => exact .inr ⟨hl, b, hq, rfl⟩
  | wait | send i ph id l | finish => exact .inl rfl

/-- Settles O52: ticks pop with the lock free, and a push is next only where the lock is held. -/
theorem queueIsAFifoUnderTheLock : Obligations.QueueIsAFifoUnderTheLock := by
  intro s t hpos h
  cases step_effect h with
  | tick ts _ h => exact h.queue.imp_right .inl
  | micro ts m ms _ hp h =>
    cases h with
    | push j b =>
      have hl : s.lock = true := by
        obtain ⟨-, hsync⟩ | ⟨hm, -⟩ | ⟨hl, -⟩ | ⟨hl, -⟩ := hpos.next_micro hp
        · exact absurd (hsync _ List.mem_cons_self).1 Bool.false_ne_true
        · cases hm
        · exact hl
        · exact hl
      rw [State.push_queue]
      split
      · next hroom => exact .inr (.inr ⟨hl, hroom, b, rfl⟩)
      · exact .inl rfl
    | drive | emit | setLock | clearLock => exact .inl rfl
  | command ts w ws i _ _ _ _ h => exact .inl h.queue
  | idle ts _ _ _ h => exact .inl (h ▸ rfl)

end Sys2Proof.Machine
end

section
/-! The invariants (spec/10_state.md R31) hold at reset and every step keeps them: the Message Buffer, the engine and
the configuration by the changes that a step can make, and the HOST's position. And a tick before any TXASYNC. -/

namespace Sys2Proof.Machine

/-! ### The parts of the invariant -/

/-- The part of the invariant that is about the Message Buffer (20_memory.md R41). -/
structure BufferOk (s : State) : Prop where
  memWf : s.msg.wf
  memBelowCap : ∀ c ∈ s.msg, c.1 < s.msgCap.toNat
  msgBacked : ∀ a, a < s.msgLen.toNat → (memLookup s.msg a).isSome = true
  msgFits : s.msgLen.toNat ≤ s.msgCap.toNat
  capPositive : 0 < s.msgCap.toNat

/-- The part of the invariant that is about the queue and the byte in flight. -/
structure EngineOk (s : State) : Prop where
  queueFits : s.qsize ≤ Config.qCap
  byteInFlight : s.phase ≠ .start → s.curByte.isSome = true

/-- The part of the invariant that is about the Line Configuration. -/
structure ConfigOk (s : State) : Prop where
  timestepRange : ∀ ts, s.timestep = some ts → 1 ≤ ts.toNat ∧ ts.toNat ≤ 500000
  stopRange : ∀ sh, s.stopHalves = some sh → sh = 2#3 ∨ sh = 3#3 ∨ sh = 4#3

theorem inv_iff (s : State) : Inv s ↔ BufferOk s ∧ EngineOk s ∧ ConfigOk s ∧ HostPosition s := by
  constructor
  · rintro ⟨hwf, hcap, hbacked, hfits, hpos, hqueue, hbyte, hts, hsh, hhost⟩
    exact ⟨⟨hwf, hcap, hbacked, hfits, hpos⟩, ⟨hqueue, hbyte⟩, ⟨hts, hsh⟩, hhost⟩
  · rintro ⟨⟨hwf, hcap, hbacked, hfits, hpos⟩, ⟨hqueue, hbyte⟩, ⟨hts, hsh⟩, hhost⟩
    exact ⟨hwf, hcap, hbacked, hfits, hpos, hqueue, hbyte, hts, hsh, hhost⟩

theorem hostPosition_of_no_pending {s : State} (hl : s.lock = false) (hp : s.pending = []) : HostPosition s :=
  .inl ⟨hl, by simp [hp]⟩

/-- Settles O57: no byte of `MSG`, no configuration and no command in progress. -/
theorem resetMeetsTheInvariants : Obligations.ResetMeetsTheInvariants := by
  intro cap hcap
  refine (inv_iff _).mpr ⟨⟨reset_msg_wf, nofun, nofun, Nat.zero_le _, ?_⟩, ⟨Nat.zero_le _, nofun⟩, ⟨nofun, nofun⟩,
    hostPosition_of_no_pending rfl rfl⟩
  show 0 < cap.toNat
  bv_omega

/-! ### The Message Buffer -/

theorem appendByte_toNat {s : State} (b : Byte) (h : s.hasRoom 1 = true) :
    (s.appendByte b).msgLen.toNat = s.msgLen.toNat + 1 := s.appendBytes_msgLen [b] (hasRoom_lt h)

theorem BufferOk.appendByte {s : State} (h : BufferOk s) (b : Byte) (hroom : s.hasRoom 1 = true) :
    BufferOk (s.appendByte b) := by
  have hlen := appendByte_toNat b hroom
  have hle : s.msgLen.toNat + 1 ≤ s.msgCap.toNat := hasRoom_iff.mp hroom
  refine ⟨appendByte_wf h.memWf b, fun c hc => ?_, fun a ha => ?_, hlen ▸ hle, h.capPositive⟩
  · obtain rfl | hc := mem_memStore hc
    · exact hle
    · exact h.memBelowCap c hc
  · by_cases hnew : a = s.msgLen.toNat
    · subst hnew
      simp
    · rw [State.appendByte_msg, memLookup_memStore_ne _ _ hnew]
      exact h.msgBacked a (by omega)

theorem BufferOk.appendBytes {s : State} (h : BufferOk s) (bs : List Byte) (hroom : s.hasRoom bs.length = true) :
    BufferOk (s.appendBytes bs) := by
  induction bs generalizing s with
  | nil => exact h
  | cons b bs ih =>
    rw [hasRoom_iff, List.length_cons] at hroom
    have hone : s.hasRoom 1 = true := hasRoom_iff.mpr (by omega)
    refine ih (h.appendByte b hone) (hasRoom_iff.mpr ?_)
    rw [appendByte_toNat b hone, State.appendByte_msgCap]
    omega

theorem CommandEffect.bufferOk {i : Instr} {s t : State} (h : CommandEffect s i t) (hs : BufferOk s) : BufferOk t := by
  obtain ⟨hwf, hcap, hbacked, hfits, hpos⟩ := hs
  cases h with
  | clear => exact ⟨hwf, hcap, nofun, Nat.zero_le _, hpos⟩
  | append bs ms hroom =>
    obtain ⟨hwf, hcap, hbacked, hfits, hpos⟩ := BufferOk.appendBytes ⟨hwf, hcap, hbacked, hfits, hpos⟩ bs hroom
    exact ⟨hwf, hcap, hbacked, hfits, hpos⟩
  | checksum | answer | setLine | configure | transmit => exact ⟨hwf, hcap, hbacked, hfits, hpos⟩

/-- Whatever leaves `MSG`, its length and its capacity alone keeps the buffer's part. -/
theorem BufferOk.congr {s t : State} (hs : BufferOk s) (hmsg : t.msg = s.msg) (hlen : t.msgLen = s.msgLen)
    (hcap : t.msgCap = s.msgCap) : BufferOk t := by
  obtain ⟨h1, h2, h3, h4, h5⟩ := hs
  exact ⟨by rwa [hmsg], by rwa [hmsg, hcap], by rwa [hmsg, hlen], by rwa [hlen, hcap], by rwa [hcap]⟩

theorem MicroEffect.bufferOk {m : MicroStep} {s t : State} (h : MicroEffect s m t) (hs : BufferOk s) : BufferOk t := by
  refine hs.congr h.msg ?_ ?_ <;> cases h <;> simp

theorem TickEffect.bufferOk {s t : State} (h : TickEffect s t) (hs : BufferOk s) : BufferOk t := by
  refine hs.congr h.msg ?_ ?_ <;> cases h <;> rfl

/-! ### The engine and the configuration -/

theorem CommandEffect.engineOk {i : Instr} {s t : State} (h : CommandEffect s i t) (hs : EngineOk s) : EngineOk t := by
  obtain ⟨hqueue, hbyte⟩ := hs
  cases h with
  | append bs ms => exact ⟨by simpa [State.qsize] using hqueue, by simpa using hbyte⟩
  | _ => exact ⟨hqueue, hbyte⟩

theorem MicroEffect.engineOk {m : MicroStep} {s t : State} (h : MicroEffect s m t) (hs : EngineOk s) : EngineOk t := by
  obtain ⟨hqueue, hbyte⟩ := hs
  cases h with
  | push j b => exact ⟨push_qsize_le hqueue b, by simpa using hbyte⟩
  | _ => exact ⟨hqueue, hbyte⟩

theorem TickEffect.engineOk {s t : State} (h : TickEffect s t) (hs : EngineOk s) : EngineOk t := by
  obtain ⟨hqueue, hbyte⟩ := hs
  cases h with
  | wait => exact ⟨hqueue, hbyte⟩
  | pop b q id l _ _ hq =>
    refine ⟨?_, fun _ => rfl⟩
    rw [State.qsize, hq, List.length_cons] at hqueue
    exact Nat.le_of_succ_le hqueue
  | send i ph id l hph => exact ⟨hqueue, fun _ => hbyte hph⟩
  | finish => exact ⟨hqueue, nofun⟩

theorem CommandEffect.configOk {i : Instr} {s t : State} (h : CommandEffect s i t) (hs : ConfigOk s) : ConfigOk t := by
  obtain ⟨hts, hsh⟩ := hs
  cases h with
  | configure timestep cksum stopHalves rev echo hts' hsh' =>
    constructor
    · obtain rfl | ⟨r, hr, rfl⟩ := hts'
      · exact hts
      · rintro ts ⟨⟩
        exact timestepOf_range hr
    · obtain rfl | ⟨n, hn, rfl⟩ := hsh'
      · exact hsh
      · rintro sh ⟨⟩
        exact (stopLegal_iff n).mp hn
  | append bs ms => exact ⟨by simpa using hts, by simpa using hsh⟩
  | _ => exact ⟨hts, hsh⟩

theorem MicroEffect.configOk {m : MicroStep} {s t : State} (h : MicroEffect s m t) (hs : ConfigOk s) : ConfigOk t := by
  obtain ⟨hts, hsh⟩ := hs
  cases h with
  | push j b => exact ⟨by simpa using hts, by simpa using hsh⟩
  | _ => exact ⟨hts, hsh⟩

theorem TickEffect.configOk {s t : State} (h : TickEffect s t) (hs : ConfigOk s) : ConfigOk t := by
  obtain ⟨hts, hsh⟩ := hs
  cases h <;> exact ⟨hts, hsh⟩

/-! ### The HOST's position -/

theorem txbRest_sync {source : ByteSource} {m : MicroStep} (h : m ∈ txbRest source) :
    m.isSync = true ∧ ∀ source', m.byteSource = some source' → source' = source := by
  have hall : ∀ m ∈ txbRest source, m.isSync = true ∧ ∀ source', m.byteSource = some source' → source' = source := by
    simp [txbRest, MicroStep.isSync, MicroStep.byteSource]
  exact hall m h

theorem txMsgRest_sync {n : Nat} {m : MicroStep} (h : m ∈ txMsgRest n) :
    m.isSync = true ∧ ∀ j, m.byteSource = some (.message j) → j < n := by
  obtain ⟨j, hj, h⟩ := List.mem_flatMap.mp h
  obtain rfl | h := List.mem_cons.mp h
  · exact ⟨rfl, nofun⟩
  · obtain ⟨hsync, hsource⟩ := txbRest_sync h
    refine ⟨hsync, fun j' hj' => ?_⟩
    cases hsource _ hj'
    exact List.mem_range.mp hj

/-- A command starts between commands, with the lock free, and leaves the HOST at its first micro-step. -/
theorem CommandEffect.hostPosition {i : Instr} {s t : State} (h : CommandEffect s i t) (hs : HostPosition s)
    (hp : s.pending = []) : HostPosition t := by
  have hl := hs.lock_free hp
  cases h with
  | transmit b id l =>
    refine .inl ⟨hl, fun m hm => ?_⟩
    obtain ⟨hsync, hsource⟩ := txbRest_sync hm
    exact ⟨hsync, fun j hj => nomatch hsource _ hj⟩
  | append bs ms _ hms =>
    have hl' : ((s.appendBytes bs).leave ms).lock = false := by simpa using hl
    cases hms with
    | same => exact hostPosition_of_no_pending hl' hp
    | sync => exact .inl ⟨hl', fun m hm => txMsgRest_sync hm⟩
    | async => exact .inr (.inl ⟨hl', rfl⟩)
  | checksum | answer | setLine | configure | clear => exact hostPosition_of_no_pending hl hp

/-- A micro-step moves the HOST to the next one of its command. -/
theorem MicroEffect.hostPosition {m : MicroStep} {ms : List MicroStep} {s t : State} (h : MicroEffect (s.leave ms) m t)
    (hs : HostPosition s) (hp : s.pending = m :: ms) : HostPosition t := by
  obtain ⟨hl, hsync⟩ | ⟨rfl, rfl⟩ | ⟨hl, j, hj, rfl, rfl⟩ | ⟨hl, rfl, rfl⟩ := hs.next_micro hp
  · obtain ⟨⟨hm, -⟩, hrest⟩ := List.forall_mem_cons.mp hsync
    cases h with
    | drive | emit => exact .inl ⟨hl, hrest⟩
    | setLock | push | clearLock => cases hm
  · cases h with
    | drive _ _ hm | emit _ _ hm => cases hm
    | setLock => exact .inr (.inr ⟨rfl, 0, Nat.zero_le _, rfl⟩)
  · cases h with
    | drive _ _ hm | emit _ _ hm => cases hm
    | push _ b => exact .inr (.inr ⟨by simpa using hl, j + 1, by simpa using hj, by simp⟩)
  · cases h with
    | drive _ _ hm | emit _ _ hm => cases hm
    | clearLock => exact hostPosition_of_no_pending rfl rfl

theorem TickEffect.hostPosition {s t : State} (h : TickEffect s t) (hs : HostPosition s) : HostPosition t := by
  cases h <;> exact hs

/-! ### Every step keeps the invariants -/

/-- The invariants do not speak of the schedule. -/
theorem Inv.scheduled {s : State} (h : Inv s) (ts : List Context) : Inv (s.scheduled ts) := by
  obtain ⟨hwf, hcap, hbacked, hfits, hpos, hqueue, hbyte, hts, hsh, hhost⟩ := h
  exact ⟨hwf, hcap, hbacked, hfits, hpos, hqueue, hbyte, hts, hsh, hhost⟩

/-- The parts of the invariant but the HOST's position do not speak of the micro-steps and words it has still to run. -/
theorem Inv.rest {s : State} (h : Inv s) (ms : List MicroStep) (ws : List Word) :
    BufferOk { s with pending := ms, port := ws } ∧ EngineOk { s with pending := ms, port := ws } ∧
      ConfigOk { s with pending := ms, port := ws } := by
  obtain ⟨⟨hwf, hcap, hbacked, hfits, hpos⟩, ⟨hqueue, hbyte⟩, ⟨hts, hsh⟩, -⟩ := (inv_iff s).mp h
  exact ⟨⟨hwf, hcap, hbacked, hfits, hpos⟩, ⟨hqueue, hbyte⟩, ⟨hts, hsh⟩⟩

/-- Settles O58: each part of the invariant survives each change that a step makes. -/
theorem everyStepKeepsTheInvariants : Obligations.EveryStepKeepsTheInvariants := by
  intro s t hs h
  cases step_effect h with
  | tick ts _ h =>
    obtain ⟨hbuffer, hengine, hconfig, hhost⟩ := (inv_iff _).mp (hs.scheduled ts)
    exact (inv_iff t).mpr ⟨h.bufferOk hbuffer, h.engineOk hengine, h.configOk hconfig, h.hostPosition hhost⟩
  | micro ts m ms _ hp h =>
    have hhost := (hs.scheduled ts).hostPosition
    obtain ⟨hbuffer, hengine, hconfig⟩ := (hs.scheduled ts).rest ms s.port
    exact (inv_iff t).mpr ⟨h.bufferOk hbuffer, h.engineOk hengine, h.configOk hconfig, h.hostPosition hhost hp⟩
  | command ts w ws i _ hp _ _ h =>
    have hhost := (hs.scheduled ts).hostPosition
    obtain ⟨hbuffer, hengine, hconfig⟩ := (hs.scheduled ts).rest s.pending ws
    exact (inv_iff t).mpr ⟨h.bufferOk hbuffer, h.engineOk hengine, h.configOk hconfig, h.hostPosition hhost hp⟩
  | idle ts _ _ _ h => exact h ▸ hs.scheduled ts

/-! ### Before any TXASYNC -/

/-- Nothing is queued or in flight, and no TXASYNC is in progress or in the command port. -/
structure NoAsync (s : State) : Prop where
  idle : EngineIdle s
  syncPending : ∀ m ∈ s.pending, m.isSync = true
  noWord : ∀ w ∈ s.port, w ≠ 0x50000000#32

/-- Only the word of TXASYNC decodes to it (30_encoding.md R64). -/
theorem eq_of_decode_txAsync {w : Word} (h : decode w = .ok .txAsync) : w = 0x50000000#32 :=
  (Option.some.inj (encode_of_decode h)).symm

/-- What a command other than TXASYNC leaves to run is of TXB or TXMSG. -/
theorem CommandEffect.noAsync {i : Instr} {s t : State} (h : CommandEffect s i t) (hs : NoAsync s)
    (hi : i ≠ .txAsync) : NoAsync t := by
  obtain ⟨⟨hq, hph⟩, hsync, hport⟩ := hs
  cases h with
  | transmit b id l => exact ⟨⟨hq, hph⟩, fun m hm => (txbRest_sync hm).1, hport⟩
  | append bs ms _ hms =>
    refine ⟨⟨by simpa using hq, by simpa using hph⟩, ?_, by simpa using hport⟩
    cases hms with
    | same => exact hsync
    | sync => exact fun m hm => (txMsgRest_sync hm).1
    | async h => exact absurd h hi
  | checksum | answer | setLine | configure | clear => exact ⟨⟨hq, hph⟩, hsync, hport⟩

theorem step_keeps_noAsync {s t : State} (hs : NoAsync s) (h : step s = .next t) : NoAsync t := by
  obtain ⟨⟨hq, hph⟩, hsync, hport⟩ := hs
  cases step_effect h with
  | tick ts _ h =>
    cases h with
    | wait => exact ⟨⟨hq, hph⟩, hsync, hport⟩
    | pop b q id l _ _ hq' => cases hq.symm.trans hq'
    | send _ _ _ _ hph' | finish hph' => exact absurd hph hph'
  | micro ts m ms _ hp h =>
    rw [hp] at hsync
    obtain ⟨hm, hrest⟩ := List.forall_mem_cons.mp hsync
    cases h with
    | drive | emit => exact ⟨⟨hq, hph⟩, hrest, hport⟩
    | setLock | push | clearLock => cases hm
  | command ts w ws i _ _ hw hd h =>
    rw [hw] at hport
    obtain ⟨hne, hrest⟩ := List.forall_mem_cons.mp hport
    refine h.noAsync ⟨⟨hq, hph⟩, hsync, hrest⟩ ?_
    rintro rfl
    exact hne (eq_of_decode_txAsync hd)
  | idle ts _ _ _ h => exact h ▸ ⟨⟨hq, hph⟩, hsync, hport⟩

/-- Settles O2: without a TXASYNC the engine stays idle, and a tick of an idle engine waits. -/
theorem tickBeforeAnyTxAsyncIsANoOp : Obligations.TickBeforeAnyTxAsyncIsANoOp := by
  intro n cap words sched s hwords hrun
  have hreset : NoAsync { State.reset with msgCap := cap, port := words, turns := sched } :=
    ⟨⟨rfl, rfl⟩, nofun, hwords⟩
  obtain ⟨⟨hq, hph⟩, -, -⟩ := run_keeps (fun _ _ => step_keeps_noAsync) hreset hrun
  exact exec_tick_of_waiting hph (.inr hq)

end Sys2Proof.Machine
end

section
/-! The faults of a step (spec/10_state.md R23, spec/60_exceptions.md R186): each names its cause in the state the step
started from, and a micro-step that reads an unwritten field does raise it. -/

namespace Sys2Proof.Machine

/-! ### The causes of a fault -/

/-- One of the fields is unwritten, and `f` names it. -/
def NamesUnwritten (s : State) (fields : List ConfigField) (f : Fault) : Prop :=
  ∃ field ∈ fields, s.written field = false ∧ f = .cfgUnwritten field

/-- What a fault says of the state it was raised in. -/
inductive FaultCause (s : State) : Fault → Prop
  | unwritten (field : ConfigField) (h : s.written field = false) : FaultCause s (.cfgUnwritten field)
  | rate (r : BitVec 24) : FaultCause s (.baudRange r)
  | noRoom : FaultCause s (.msgOverflow s.msgLen)
  /-- a byte below the length that holds no value (assumption log 6) -/
  | noByte (a : Nat) (ha : a < s.msgLen.toNat) (h : memLookup s.msg a = none) : FaultCause s .msgByteUnwritten

/-! ### The reads that can fault -/

/-- Reading a byte faults when it holds no value, or goes on. -/
theorem withByte_fault {value : Option Byte} {k : Byte → Result} {f : Fault} (h : withByte value k = .fault f) :
    (value = none ∧ f = .msgByteUnwritten) ∨ ∃ b, value = some b ∧ k b = .fault f := by
  cases value with
  | none => cases h; exact .inl ⟨rfl, rfl⟩
  | some b => exact .inr ⟨b, rfl, h⟩

/-- Reading the line and the polarity faults on one of the two that is unwritten, or goes on. -/
theorem withLine_fault {s : State} {k : Byte → Flag → Result} {f : Fault} (h : withLine s k = .fault f) :
    NamesUnwritten s [.lineId, .rev] f ∨ ∃ id rev, k id rev = .fault f := by
  obtain ⟨hid, rfl⟩ | ⟨id, -, h⟩ := withCfg_fault h
  · exact .inl ⟨.lineId, by simp, by simp [State.written, hid], rfl⟩
  obtain ⟨hrev, rfl⟩ | ⟨rev, -, h⟩ := withCfg_fault h
  · exact .inl ⟨.rev, by simp, by simp [State.written, hrev], rfl⟩
  · exact .inr ⟨id, rev, h⟩

theorem drive_fault {level : Flag → Level} {s : State} {f : Fault} (h : drive level s = .fault f) :
    NamesUnwritten s [.lineId, .rev] f := by
  obtain h | ⟨id, rev, h⟩ := withLine_fault h
  · exact h
  · cases h

/-- The same from a state that has changed since, but for the line and the polarity. -/
theorem drive_fault_cause {level : Flag → Level} {s u : State} {f : Fault} (h : drive level u = .fault f)
    (hid : u.lineId = s.lineId) (hrev : u.rev = s.rev) : FaultCause s f := by
  obtain ⟨field, hf, hw, rfl⟩ := drive_fault h
  obtain rfl | rfl : field = .lineId ∨ field = .rev := by simpa using hf
  · exact .unwritten .lineId (by rwa [State.written, hid] at hw)
  · exact .unwritten .rev (by rwa [State.written, hrev] at hw)

/-- A byte of the message that holds no value stands below the length. -/
theorem exists_no_byte {s : State} (h : s.message = none) :
    ∃ a, a < s.msgLen.toNat ∧ memLookup s.msg a = none := by
  by_contra hall
  push Not at hall
  have hsome : s.message.isSome = true :=
    memBytes_isSome_iff.mpr fun i _ hi => Option.isSome_iff_ne_none.mpr (hall i (by omega))
  simp [h] at hsome

/-- Augmentation faults without a mode, without room, or on a byte that holds no value (43_message.md R128). -/
theorem augment_fault {s : State} {k : State → Result} {f : Fault} (h : augment s k = .fault f)
    (hk : ∀ u, k u ≠ .fault f) : FaultCause s f := by
  obtain ⟨hm, rfl⟩ | ⟨mode, hm, h⟩ := withCfg_fault h
  · exact .unwritten .cksum (by simp [State.written, hm])
  split at h
  · split at h
    · split at h
      · exact absurd h (hk _)
      · next hnone =>
        cases h
        obtain ⟨a, ha, hbyte⟩ := exists_no_byte hnone
        exact .noByte a ha hbyte
    · exact absurd h (hk _)
  · cases h
    exact .noRoom

/-! ### The faults of each operation -/

theorem execSetBaud_fault {r : BitVec 24} {s : State} {f : Fault} (h : execSetBaud r s = .fault f) :
    FaultCause s f := by
  unfold execSetBaud at h
  split at h
  · cases h
  · cases h
    exact .rate r

theorem execMsgGet_fault {i : BitVec 16} {s : State} {f : Fault} (h : execMsgGet i s = .fault f) : FaultCause s f := by
  unfold execMsgGet at h
  split at h
  · cases h
  · next hi =>
    have hlt : i.toNat < s.msgLen.toNat := by simpa [BitVec.le_def] using hi
    obtain ⟨hb, rfl⟩ | ⟨b, -, h⟩ := withByte_fault h
    · rw [State.memRead, if_pos hlt] at hb
      exact .noByte _ hlt hb
    · cases h

theorem tick_fault {s : State} {f : Fault} (h : exec .tick s = .fault f) : FaultCause s f := by
  cases hph : s.phase with
  | start =>
    by_cases hw : s.lock = true ∨ s.queue = []
    · rw [exec_tick_of_waiting hph hw] at h
      cases h
    · obtain ⟨hl, hq⟩ : s.lock = false ∧ s.queue ≠ [] := by simpa using hw
      obtain ⟨b, q, hq⟩ := List.exists_cons_of_ne_nil hq
      rw [exec_tick_of_queued hph hl hq] at h
      exact drive_fault_cause h rfl rfl
  | sending =>
    by_cases hb : s.bitIdx.toNat < 7
    · rw [exec_tick_of_bit_left hph hb] at h
      exact drive_fault_cause h rfl rfl
    · rw [exec_tick_of_no_bit_left hph hb] at h
      exact drive_fault_cause h rfl rfl
  | stop =>
    cases hsh : s.stopHalves with
    | none =>
      rw [exec_tick_of_stopHalves_unwritten hph hsh] at h
      cases h
      exact .unwritten .stopHalves (by simp [State.written, hsh])
    | some sh =>
      by_cases h4 : sh = 4#3
      · rw [exec_tick_of_two_stop_bits hph (h4 ▸ hsh)] at h
        exact drive_fault_cause h rfl rfl
      · rw [exec_tick_of_not_two_stop_bits hph hsh h4] at h
        cases h

theorem exec_txMsg (s : State) :
    exec .txMsg s = augment s fun t => .next (t.leave (txMsgRest t.msgLen.toNat)) := rfl

theorem exec_txAsync (s : State) :
    exec .txAsync s = augment s fun t => .next (t.leave (txAsyncRest t.msgLen.toNat)) := rfl

/-- Every fault of an operation has its cause. -/
theorem exec_fault {i : Instr} {s : State} {f : Fault} (h : exec i s = .fault f) : FaultCause s f := by
  cases i with
  | setBaud r => exact execSetBaud_fault h
  | getBaud =>
    obtain ⟨hts, rfl⟩ | ⟨ts, -, h⟩ := withCfg_fault h
    · exact .unwritten .timestep (by simp [State.written, hts])
    · cases h
  | getCksum =>
    obtain ⟨hm, rfl⟩ | ⟨m, -, h⟩ := withCfg_fault h
    · exact .unwritten .cksum (by simp [State.written, hm])
    · cases h
  | setStop n =>
    simp only [exec, execSetStop] at h
    split at h <;> cases h
  | msgPut b =>
    simp only [exec, execMsgPut] at h
    split at h <;> cases h
  | msgGet j => exact execMsgGet_fault h
  | txb b => exact drive_fault_cause (u := s.leave (txbRest (.operand b))) h rfl rfl
  | txMsg =>
    rw [exec_txMsg] at h
    exact augment_fault h fun _ hnext => by cases hnext
  | txAsync =>
    rw [exec_txAsync] at h
    exact augment_fault h fun _ hnext => by cases hnext
  | tick => exact tick_fault h
  | crcInit | crcUpd | crcRd | setLine | setCksum | setRev | setEcho | msgClr | msgLen | bufSz => cases h

/-- The byte that a micro-step sends or pushes cannot be read. -/
def ByteMissing (m : MicroStep) (s : State) : Prop :=
  ∃ j, s.memRead j = none ∧ (m.byteSource = some (.message j) ∨ m = .push j)

theorem byteMissing_of_source {m : MicroStep} {s : State} {source : ByteSource} (hm : m.byteSource = some source)
    (h : s.sourceByte source = none) : ByteMissing m s := by
  cases source with
  | operand b => cases h
  | message j => exact ⟨j, h, .inl hm⟩

/-- A micro-step faults on a field it reads, or on its byte. -/
theorem execMicro_fault {m : MicroStep} {s : State} {f : Fault} (h : execMicro m s = .fault f) :
    NamesUnwritten s m.reads f ∨ (f = .msgByteUnwritten ∧ ByteMissing m s) := by
  cases m with
  | driveStart => exact .inl (drive_fault h)
  | driveData source k =>
    obtain h | ⟨id, rev, h⟩ := withLine_fault h
    · exact .inl h
    obtain ⟨hb, rfl⟩ | ⟨b, -, h⟩ := withByte_fault h
    · exact .inr ⟨rfl, byteMissing_of_source rfl hb⟩
    · cases h
  | holdBit =>
    obtain ⟨hts, rfl⟩ | ⟨ts, -, h⟩ := withCfg_fault h
    · exact .inl ⟨.timestep, by simp [MicroStep.reads], by simp [State.written, hts], rfl⟩
    · cases h
  | echo source =>
    obtain ⟨he, rfl⟩ | ⟨e, -, h⟩ := withCfg_fault h
    · exact .inl ⟨.echo, by simp [MicroStep.reads], by simp [State.written, he], rfl⟩
    split at h
    · obtain ⟨hb, rfl⟩ | ⟨b, -, h⟩ := withByte_fault h
      · exact .inr ⟨rfl, byteMissing_of_source rfl hb⟩
      · cases h
    · cases h
  | driveStop => exact .inl (drive_fault h)
  | holdStop =>
    obtain ⟨hsh, rfl⟩ | ⟨sh, -, h⟩ := withCfg_fault h
    · exact .inl ⟨.stopHalves, by simp [MicroStep.reads], by simp [State.written, hsh], rfl⟩
    obtain ⟨hts, rfl⟩ | ⟨ts, -, h⟩ := withCfg_fault h
    · exact .inl ⟨.timestep, by simp [MicroStep.reads], by simp [State.written, hts], rfl⟩
    · cases h
  | push j =>
    obtain ⟨hb, rfl⟩ | ⟨b, -, h⟩ := withByte_fault h
    · exact .inr ⟨rfl, j, hb, .inr rfl⟩
    · cases h
  | setLock | clearLock => cases h

/-- Every fault of a step is one of a TICK, of a micro-step or of a command. -/
theorem step_fault {s : State} {f : Fault} (h : step s = .fault f) :
    ∃ ts, (exec .tick (s.scheduled ts) = .fault f) ∨
      (∃ m ms, s.pending = m :: ms ∧ execMicro m ((s.scheduled ts).leave ms) = .fault f) ∨
      ∃ ws i, exec i { s.scheduled ts with port := ws } = .fault f := by
  have hhost (ts : List Context) (h : hostTurn (s.scheduled ts) = .fault f) :
      (∃ m ms, s.pending = m :: ms ∧ execMicro m ((s.scheduled ts).leave ms) = .fault f) ∨
        ∃ ws i, exec i { s.scheduled ts with port := ws } = .fault f := by
    cases hp : s.pending with
    | cons m ms =>
      rw [hostTurn_micro (by exact hp)] at h
      exact .inl ⟨m, ms, rfl, h⟩
    | nil =>
      cases hw : s.port with
      | nil =>
        rw [hostTurn_idle (by exact hp) (by exact hw)] at h
        cases h
      | cons w ws =>
        rw [hostTurn_issue (by exact hp) (by exact hw)] at h
        cases hd : decode w with
        | ok i =>
          rw [issue_of_decode hd] at h
          exact .inr ⟨ws, i, h⟩
        | illegal why =>
          rw [issue_of_illegal ⟨why, hd⟩] at h
          cases h
  cases hts : s.turns with
  | nil =>
    rw [step_unscheduled hts] at h
    have hs : s.scheduled [] = s := by rw [← hts]; rfl
    exact ⟨[], .inr (hhost [] (by rwa [hs]))⟩
  | cons c ts =>
    cases c with
    | tick => exact ⟨ts, .inl (by rwa [step_tick hts] at h)⟩
    | host => exact ⟨ts, .inr (hhost ts (by rwa [step_host hts] at h))⟩

/-! ### Unwritten fields -/

theorem FaultCause.unwritten_of_cfg {s : State} {field : ConfigField} (h : FaultCause s (.cfgUnwritten field)) :
    s.written field = false := by
  cases h; assumption

/-- A step names only an unwritten field (10_state.md R23). -/
theorem step_cfgUnwritten {s : State} {field : ConfigField} (h : step s = .fault (.cfgUnwritten field)) :
    s.written field = false := by
  obtain ⟨ts, h | ⟨m, ms, -, h⟩ | ⟨ws, i, h⟩⟩ := step_fault h
  · exact (exec_fault h).unwritten_of_cfg
  · obtain ⟨field', -, hw, he⟩ | ⟨he, -⟩ := execMicro_fault h
    · cases he
      exact hw
    · cases he
  · exact (exec_fault h).unwritten_of_cfg

theorem line_unwritten {s : State} (h : ∃ f ∈ [ConfigField.lineId, .rev], s.written f = false) :
    s.lineId = none ∨ s.rev = none := by
  simpa [State.written] using h

/-- Reading the line and the polarity with one unwritten raises `CfgUnwritten` of one that is. -/
theorem withLine_raises {s : State} {k : Byte → Flag → Result} (h : s.lineId = none ∨ s.rev = none) :
    ∃ f ∈ [ConfigField.lineId, .rev], s.written f = false ∧ withLine s k = .fault (.cfgUnwritten f) := by
  obtain ⟨hid, hk⟩ | ⟨hrev, hk⟩ := withLine_of_unwritten (k := k) h
  · exact ⟨.lineId, by simp, by simp [State.written, hid], hk⟩
  · exact ⟨.rev, by simp, by simp [State.written, hrev], hk⟩

/-- A micro-step that reads an unwritten field raises `CfgUnwritten` of one that it reads (44_sync_tx.md R137). -/
theorem execMicro_raises {m : MicroStep} {s : State} (h : ∃ f ∈ m.reads, s.written f = false) :
    ∃ f ∈ m.reads, s.written f = false ∧ execMicro m s = .fault (.cfgUnwritten f) := by
  cases m with
  | driveStart => exact withLine_raises (line_unwritten h)
  | driveData source k => exact withLine_raises (line_unwritten h)
  | driveStop => exact withLine_raises (line_unwritten h)
  | holdBit =>
    have hts : s.timestep = none := by simpa [MicroStep.reads, State.written] using h
    exact ⟨.timestep, by simp [MicroStep.reads], by simp [State.written, hts], withCfg_of_unwritten hts⟩
  | echo source =>
    have he : s.echo = none := by simpa [MicroStep.reads, State.written] using h
    exact ⟨.echo, by simp [MicroStep.reads], by simp [State.written, he], withCfg_of_unwritten he⟩
  | holdStop =>
    cases hsh : s.stopHalves with
    | none => exact ⟨.stopHalves, by simp [MicroStep.reads], by simp [State.written, hsh], withCfg_of_unwritten hsh⟩
    | some sh =>
      have hts : s.timestep = none := by simpa [MicroStep.reads, State.written, hsh] using h
      refine ⟨.timestep, by simp [MicroStep.reads], by simp [State.written, hts], ?_⟩
      exact (withCfg_of_written hsh).trans (withCfg_of_unwritten hts)
  | setLock | push | clearLock => simp [MicroStep.reads] at h

/-- Both fields of the line are written. -/
theorem line_written {s : State} (h : ∀ f ∈ [ConfigField.lineId, .rev], s.written f = true) :
    ∃ id rev, s.lineId = some id ∧ s.rev = some rev := by
  obtain ⟨id, hid⟩ := Option.isSome_iff_exists.mp (h .lineId (by simp))
  obtain ⟨rev, hrev⟩ := Option.isSome_iff_exists.mp (h .rev (by simp))
  exact ⟨id, rev, hid, hrev⟩

/-- A micro-step of TXB or TXMSG with its fields written and its byte readable completes (44_sync_tx.md R137). -/
theorem execMicro_completes {m : MicroStep} {s : State} (hm : m.isSync = true)
    (hw : ∀ f ∈ m.reads, s.written f = true)
    (hb : ∀ source, m.byteSource = some source → ∃ b, s.sourceByte source = some b) :
    ∃ t, execMicro m s = .next t := by
  cases m with
  | driveStart | driveStop =>
    obtain ⟨id, rev, hid, hrev⟩ := line_written hw
    exact ⟨_, drive_of_written hid hrev⟩
  | driveData source k =>
    obtain ⟨id, rev, hid, hrev⟩ := line_written hw
    obtain ⟨b, hb⟩ := hb source rfl
    exact ⟨_, microDriveData_of_written hid hrev hb k⟩
  | holdBit =>
    obtain ⟨ts, hts⟩ := Option.isSome_iff_exists.mp (hw .timestep (by simp [MicroStep.reads]))
    exact ⟨_, microHoldBit_of_written hts⟩
  | echo source =>
    obtain ⟨e, he⟩ := Option.isSome_iff_exists.mp (hw .echo (by simp [MicroStep.reads]))
    obtain ⟨b, hb⟩ := hb source rfl
    exact ⟨_, microEcho_of_written he hb⟩
  | holdStop =>
    obtain ⟨sh, hsh⟩ := Option.isSome_iff_exists.mp (hw .stopHalves (by simp [MicroStep.reads]))
    obtain ⟨ts, hts⟩ := Option.isSome_iff_exists.mp (hw .timestep (by simp [MicroStep.reads]))
    exact ⟨_, microHoldStop_of_written hsh hts⟩
  | setLock | push | clearLock => cases hm

/-- Settles O42: the causes of the faults, and each micro-step with a field unwritten or with all it needs. -/
theorem cfgUnwrittenNamesAnUnwrittenField : Obligations.CfgUnwrittenNamesAnUnwrittenField :=
  ⟨fun _ _ => step_cfgUnwritten, fun _ _ => execMicro_raises, fun _ _ => execMicro_completes⟩

/-! ### Bytes without a value -/

/-- With every byte below the length backed, no operation finds one that holds no value. -/
theorem FaultCause.ne_noByte {s : State} {f : Fault} (h : FaultCause s f)
    (hs : ∀ a, a < s.msgLen.toNat → (memLookup s.msg a).isSome = true) : f ≠ .msgByteUnwritten := by
  rintro rfl
  cases h with
  | noByte a ha h => simpa [h] using hs a ha

/-- Where the HOST stands, the next micro-step finds its byte. -/
theorem HostPosition.byte_present {s : State} {m : MicroStep} {ms : List MicroStep} (hs : HostPosition s)
    (hbacked : ∀ a, a < s.msgLen.toNat → (memLookup s.msg a).isSome = true) (hp : s.pending = m :: ms) :
    ¬ ByteMissing m s := by
  rintro ⟨j, hnone, hm⟩
  have hj : j < s.msgLen.toNat := by
    obtain ⟨-, hsync⟩ | ⟨rfl, -⟩ | ⟨-, k, hk, rfl, -⟩ | ⟨-, rfl, -⟩ := hs.next_micro hp
    · obtain ⟨hsync, hbelow⟩ := hsync m List.mem_cons_self
      obtain hm | rfl := hm
      · exact hbelow j hm
      · cases hsync
    · simp [MicroStep.byteSource] at hm
    · simp [MicroStep.byteSource] at hm
      exact hm ▸ hk
    · simp [MicroStep.byteSource] at hm
  have hsome := hbacked j hj
  rw [State.memRead, if_pos hj] at hnone
  simp [hnone] at hsome

/-- Settles O59: every byte below the length holds a value, and every micro-step reads below the length. -/
theorem noRunReadsAByteWithoutAValue : Obligations.NoRunReadsAByteWithoutAValue := by
  refine fun s hs => ⟨fun h => ?_, fun hph => Option.isSome_iff_exists.mp (hs.byteInFlight (by simp [hph]))⟩
  obtain ⟨ts, h | ⟨m, ms, hp, h⟩ | ⟨ws, i, h⟩⟩ := step_fault h
  · exact (exec_fault h).ne_noByte hs.msgBacked rfl
  · obtain ⟨field, -, -, he⟩ | ⟨-, hmissing⟩ := execMicro_fault h
    · cases he
    · exact hs.hostPosition.byte_present hs.msgBacked hp hmissing
  · exact (exec_fault h).ne_noByte hs.msgBacked rfl

end Sys2Proof.Machine
end

section
/-! The Checksum Engine (spec/40_crc.md): CRC.UPD and the remark on zero bytes that R81 refutes, the laws of R87, the
commands of `computeCRC16` (spec/30_encoding.md R69), and that nothing but the three commands reads or writes `crc`. -/

namespace Sys2Proof.Machine

/-! ### CRC.UPD -/

theorem exec_crcUpd (b : Byte) (s : State) : exec (.crcUpd b) s = .next { s with crc := crc16Update s.crc b } := rfl

/-- Settles O11: the registers `x` are the iterates of one shift. -/
theorem crcUpdTakesOneByte : Obligations.CrcUpdTakesOneByte := by
  refine ⟨decode_crcUpd, fun b s => ?_, fun s hs => ?_⟩
  · exact ⟨fun k => Nat.repeat crc16Shift k.val (s.crc ^^^ (b ++ 0x00#8)), rfl, fun k => rfl, exec_crcUpd b s⟩
  · have hexample : crc16Update 0xFFFF#16 0x41#8 = 0xB915#16 := by decide
    rw [exec_crcUpd, hs, hexample]

/-- Refutes O12: the zero byte leaves `crc` = 0xF01F as it is (assumption log 11). -/
theorem not_zeroByteChangesEveryNonzeroCrc : ¬ Obligations.ZeroByteChangesEveryNonzeroCrc := by
  intro h
  have hfixed : crc16Update 0xF01F#16 0x00#8 = 0xF01F#16 := by decide
  exact h { State.reset with crc := 0xF01F#16 } _ (by decide) (exec_crcUpd 0x00#8 _) hfixed

/-! ### The laws of `crc16` -/

/-- `crc16` of more bytes continues from the CRC of the first ones (R87 (a)). -/
theorem crc16_append (bs cs : List Byte) : crc16 (bs ++ cs) = cs.foldl crc16Update (crc16 bs) := List.foldl_append

/-- Feeding the upper byte of the register leaves its lower byte, shifted up: there is nothing to fold back. -/
theorem crc16Update_high (c : BitVec 16) : crc16Update c (c.extractLsb' 8 8) = c <<< 8 := by
  have hlow : c ^^^ (c.extractLsb' 8 8 ++ 0x00#8) = (c <<< 8) >>> 8 := by
    rw [append_zero_byte]
    ext i hi
    interval_cases i <;> simp
  have hnone : ((c <<< 8) >>> 8) >>> 8 = 0#16 ∧ ((c <<< 8) >>> 8) >>> 12 = 0#16 := by
    constructor <;> (ext i hi; interval_cases i <;> simp)
  have hup : ((c <<< 8) >>> 8) <<< 8 = c <<< 8 := by
    ext i hi
    interval_cases i <;> simp
  rw [crc16Update, hlow, repeat_crc16Shift_eight, hnone.1, hnone.2, hup]
  exact BitVec.xor_zero

/-- Feeding a byte to a register that holds it as its upper byte, and nothing else, leaves 0. -/
theorem crc16Update_cancel (c : BitVec 16) : crc16Update (c <<< 8) (c.extractLsb' 0 8) = 0x0000#16 := by
  have hzero : (c <<< 8) ^^^ (c.extractLsb' 0 8 ++ 0x00#8) = 0#16 := by
    rw [append_zero_byte]
    ext i hi
    interval_cases i <;> simp
  rw [crc16Update, hzero]
  decide

/-- Settles O15: the two bytes of the CRC shift the register out, and two bytes in either order show that it matters. -/
theorem crcPrefixAndResidueLaws : Obligations.CrcPrefixAndResidueLaws := by
  refine ⟨fun bs b => crc16_append bs [b], by decide, fun bs => ?_, [0#8, 1#8], [1#8, 0#8], .swap _ _ _,
    by decide +kernel⟩
  rw [crc16_append, List.foldl_cons, List.foldl_cons, List.foldl_nil, crc16Update_high, crc16Update_cancel]

/-! ### `computeCRC16` -/

/-- The CRC.UPD commands of the bytes, no tick between them, fold them into `crc`. -/
theorem run_crcUpds (bs : List Byte) {s : State} {ws : List Word} {ts : List Context} (hp : s.pending = [])
    (hts : s.turns = List.replicate bs.length Context.host ++ ts)
    (hw : s.port = bs.map (fun b => 0x11000000#32 ||| b.setWidth 32) ++ ws) :
    run bs.length s = .next { s with port := ws, turns := ts, crc := bs.foldl crc16Update s.crc } := by
  induction bs generalizing s with
  | nil =>
    obtain rfl : s.turns = ts := hts
    obtain rfl : s.port = ws := hw
    rfl
  | cons b bs ih =>
    rw [List.length_cons, run_succ_of_command _ hp hw (decode_crcUpd b) hts (exec_crcUpd b _)]
    exact ih hp rfl rfl

/-- Settles O17: CRC.INIT, the CRC.UPD of each byte, and CRC.RD. -/
theorem computeCrc16AnswersTheCrcOfTheBytes : Obligations.ComputeCrc16AnswersTheCrcOfTheBytes := by
  intro bs s ws ts hp hts hw
  have hturns : List.replicate (bs.length + 1) Context.host ++ ts =
      List.replicate bs.length .host ++ .host :: ts := by
    rw [List.replicate_succ', List.append_assoc, List.singleton_append]
  have hupds := run_crcUpds bs (s := { s with crc := 0xFFFF#16, port := _, turns := _ }) hp hturns
    (List.append_assoc _ [0x12000000#32] ws)
  have hrd := run_succ_of_command 0 (s := { s with crc := crc16 bs, port := 0x12000000#32 :: ws, turns := .host :: ts })
    hp rfl decode_crcRd rfl (exec_crcRd _)
  rw [run_succ_of_command _ hp hw decode_crcInit hts (exec_crcInit _)]
  exact (run_add 1 hupds).trans hrd

/-! ### Who reads and writes `crc` -/

/-- The state with another value of `crc`. -/
def State.withCrc (s : State) (c : BitVec 16) : State := { s with crc := c }

/-- The operation neither reads nor writes `crc`. -/
def IgnoresCrc (f : State → Result) : Prop :=
  ∀ (s t : State) (c : BitVec 16), f s = .next t → t.crc = s.crc ∧ f (s.withCrc c) = .next (t.withCrc c)

theorem ignoresCrc_next {g : State → State}
    (hg : ∀ s c, (g s).crc = s.crc ∧ g (s.withCrc c) = (g s).withCrc c) : IgnoresCrc fun s => .next (g s) := by
  rintro s t c ⟨⟩
  exact ⟨(hg s c).1, congrArg _ (hg s c).2⟩

theorem IgnoresCrc.withCfg {α : Type} {get : State → Option α} {n : ConfigField} {k : α → State → Result}
    (hget : ∀ s c, get (s.withCrc c) = get s) (hk : ∀ v, IgnoresCrc (k v)) :
    IgnoresCrc fun s => withCfg (get s) n fun v => k v s := by
  intro s t c h
  obtain ⟨v, hv, h⟩ := withCfg_next h
  obtain ⟨hcrc, hu⟩ := hk v s t c h
  exact ⟨hcrc, (withCfg_of_written ((hget s c).trans hv)).trans hu⟩

theorem IgnoresCrc.withByte {get : State → Option Byte} {k : Byte → State → Result}
    (hget : ∀ s c, get (s.withCrc c) = get s) (hk : ∀ v, IgnoresCrc (k v)) :
    IgnoresCrc fun s => withByte (get s) fun v => k v s := by
  intro s t c h
  obtain ⟨v, hv, h⟩ := withByte_next h
  obtain ⟨hcrc, hu⟩ := hk v s t c h
  refine ⟨hcrc, ?_⟩
  dsimp only
  rwa [hget, hv, withByte_some]

theorem IgnoresCrc.ite {p : State → Prop} [DecidablePred p] {f g : State → Result}
    (hp : ∀ s c, p (s.withCrc c) ↔ p s) (hf : IgnoresCrc f) (hg : IgnoresCrc g) :
    IgnoresCrc fun s => if p s then f s else g s := by
  intro s t c h
  by_cases hs : p s
  · have hf := hf s t c ((if_pos hs).symm.trans h)
    exact ⟨hf.1, (if_pos ((hp s c).mpr hs)).trans hf.2⟩
  · have hg := hg s t c ((if_neg hs).symm.trans h)
    exact ⟨hg.1, (if_neg (mt (hp s c).mp hs)).trans hg.2⟩

theorem ignoresCrc_fault (f : State → Fault) : IgnoresCrc fun s => .fault (f s) := by
  intro s t c h
  cases h

theorem ignoresCrc_refused (r : State → Refusal) : IgnoresCrc fun s => .refused (r s) := by
  intro s t c h
  cases h

theorem drive_ignoresCrc (level : Flag → Level) : IgnoresCrc (drive level) :=
  .withCfg (get := (·.lineId)) (fun _ _ => rfl) fun _ =>
    .withCfg (get := (·.rev)) (fun _ _ => rfl) fun _ => ignoresCrc_next fun _ _ => ⟨rfl, rfl⟩

theorem withCrc_appendBytes (s : State) (c : BitVec 16) (bs : List Byte) :
    (s.withCrc c).appendBytes bs = (s.appendBytes bs).withCrc c := by
  induction bs generalizing s with
  | nil => rfl
  | cons b bs ih => exact ih (s.appendByte b)

theorem withCrc_push (s : State) (c : BitVec 16) (b : Byte) : (s.withCrc c).push b = (s.push b).withCrc c := by
  have hsize : (s.withCrc c).qsize = s.qsize := rfl
  rw [State.push, State.push, hsize]
  split <;> rfl

/-- Augmentation computes the checksum of the message from its bytes alone (43_message.md R126). -/
theorem augment_ignoresCrc {g : State → State}
    (hg : ∀ s c, (g s).crc = s.crc ∧ g (s.withCrc c) = (g s).withCrc c) :
    IgnoresCrc fun s => augment s fun u => .next (g u) := by
  have hnext (cs : List Byte) : IgnoresCrc fun s => .next (g (s.appendBytes cs)) :=
    ignoresCrc_next fun s c => ⟨(hg _ c).1.trans (s.appendBytes_crc cs), by rw [withCrc_appendBytes, (hg _ c).2]⟩
  refine .withCfg (get := (·.cksum)) (fun _ _ => rfl) fun mode => .ite (fun _ _ => Iff.rfl) ?_ (ignoresCrc_fault _)
  refine .ite (fun _ _ => Iff.rfl) (fun s t c h => ?_) (hnext _)
  have hmessage : (s.withCrc c).message = s.message := rfl
  dsimp only at h ⊢
  rw [hmessage]
  cases hm : s.message with
  | some bs =>
    rw [hm] at h
    exact hnext _ s t c h
  | none =>
    rw [hm] at h
    cases h

/-- Two ticks that drive one level, from states with other values of `crc`. -/
theorem exec_tick_crc_of_drive {level : Flag → Level} {s t x : State} {c : BitVec 16}
    (hs : exec .tick s = drive level x) (hu : exec .tick (s.withCrc c) = drive level (x.withCrc c)) (hx : x.crc = s.crc)
    (h : exec .tick s = .next t) : t.crc = s.crc ∧ exec .tick (s.withCrc c) = .next (t.withCrc c) := by
  obtain ⟨hcrc, hnext⟩ := drive_ignoresCrc level x t c (hs ▸ h)
  exact ⟨hcrc.trans hx, hu.trans hnext⟩

theorem exec_tick_ignoresCrc : IgnoresCrc (exec .tick) := by
  intro s t c h
  cases hph : s.phase with
  | start =>
    by_cases hw : s.lock = true ∨ s.queue = []
    · rw [exec_tick_of_waiting hph hw] at h
      cases h
      exact ⟨rfl, exec_tick_of_waiting hph hw⟩
    · obtain ⟨hl, hq⟩ : s.lock = false ∧ s.queue ≠ [] := by simpa using hw
      obtain ⟨b, q, hq⟩ := List.exists_cons_of_ne_nil hq
      exact exec_tick_crc_of_drive (exec_tick_of_queued hph hl hq) (exec_tick_of_queued hph hl hq) rfl h
  | sending =>
    by_cases hb : s.bitIdx.toNat < 7
    · exact exec_tick_crc_of_drive (exec_tick_of_bit_left hph hb) (exec_tick_of_bit_left hph hb) rfl h
    · exact exec_tick_crc_of_drive (exec_tick_of_no_bit_left hph hb) (exec_tick_of_no_bit_left hph hb) rfl h
  | stop =>
    cases hsh : s.stopHalves with
    | none =>
      rw [exec_tick_of_stopHalves_unwritten hph hsh] at h
      cases h
    | some sh =>
      by_cases h4 : sh = 4#3
      · subst h4
        exact exec_tick_crc_of_drive (exec_tick_of_two_stop_bits hph hsh) (exec_tick_of_two_stop_bits hph hsh) rfl h
      · rw [exec_tick_of_not_two_stop_bits hph hsh h4] at h
        cases h
        exact ⟨rfl, exec_tick_of_not_two_stop_bits hph hsh h4⟩

/-- Every operation but the three checksum commands ignores `crc` (R88). -/
theorem exec_ignoresCrc {i : Instr} (hinit : i ≠ .crcInit) (hupd : ∀ b, i ≠ .crcUpd b) (hrd : i ≠ .crcRd) :
    IgnoresCrc (exec i) := by
  cases i with
  | crcInit => exact absurd rfl hinit
  | crcUpd b => exact absurd rfl (hupd b)
  | crcRd => exact absurd rfl hrd
  | setLine | setCksum | setRev | setEcho | msgClr | msgLen | bufSz => exact ignoresCrc_next fun _ _ => ⟨rfl, rfl⟩
  | setBaud r => exact .ite (fun _ _ => Iff.rfl) (ignoresCrc_next fun _ _ => ⟨rfl, rfl⟩) (ignoresCrc_fault _)
  | setStop n => exact .ite (fun _ _ => Iff.rfl) (ignoresCrc_next fun _ _ => ⟨rfl, rfl⟩) (ignoresCrc_refused _)
  | msgPut b => exact .ite (fun _ _ => Iff.rfl) (ignoresCrc_next fun _ _ => ⟨rfl, rfl⟩) (ignoresCrc_refused _)
  | getBaud =>
    exact .withCfg (get := (·.timestep)) (fun _ _ => rfl) fun _ => ignoresCrc_next fun _ _ => ⟨rfl, rfl⟩
  | getCksum =>
    exact .withCfg (get := (·.cksum)) (fun _ _ => rfl) fun _ => ignoresCrc_next fun _ _ => ⟨rfl, rfl⟩
  | msgGet j =>
    exact .ite (fun _ _ => Iff.rfl) (ignoresCrc_refused _)
      (.withByte (get := (·.memRead j.toNat)) (fun _ _ => rfl) fun _ => ignoresCrc_next fun _ _ => ⟨rfl, rfl⟩)
  | txb b => exact fun s t c h => drive_ignoresCrc _ (s.leave (txbRest (.operand b))) t c h
  | txMsg => exact augment_ignoresCrc (g := fun t => t.leave (txMsgRest t.msgLen.toNat)) fun _ _ => ⟨rfl, rfl⟩
  | txAsync => exact augment_ignoresCrc (g := fun t => t.leave (txAsyncRest t.msgLen.toNat)) fun _ _ => ⟨rfl, rfl⟩
  | tick => exact exec_tick_ignoresCrc

theorem execMicro_ignoresCrc (m : MicroStep) : IgnoresCrc (execMicro m) := by
  have hsource (source : ByteSource) (s : State) (c : BitVec 16) :
      (s.withCrc c).sourceByte source = s.sourceByte source := by cases source <;> rfl
  cases m with
  | driveStart => exact drive_ignoresCrc _
  | driveData source k =>
    exact .withCfg (get := (·.lineId)) (fun _ _ => rfl) fun _ => .withCfg (get := (·.rev)) (fun _ _ => rfl) fun _ =>
      .withByte (get := (·.sourceByte source)) (hsource source) fun _ => ignoresCrc_next fun _ _ => ⟨rfl, rfl⟩
  | holdBit => exact .withCfg (get := (·.timestep)) (fun _ _ => rfl) fun _ => ignoresCrc_next fun _ _ => ⟨rfl, rfl⟩
  | echo source =>
    exact .withCfg (get := (·.echo)) (fun _ _ => rfl) fun _ => .ite (fun _ _ => Iff.rfl)
      (.withByte (get := (·.sourceByte source)) (hsource source) fun _ => ignoresCrc_next fun _ _ => ⟨rfl, rfl⟩)
      (ignoresCrc_next fun _ _ => ⟨rfl, rfl⟩)
  | driveStop => exact drive_ignoresCrc _
  | holdStop =>
    exact .withCfg (get := (·.stopHalves)) (fun _ _ => rfl) fun _ =>
      .withCfg (get := (·.timestep)) (fun _ _ => rfl) fun _ => ignoresCrc_next fun _ _ => ⟨rfl, rfl⟩
  | setLock | clearLock => exact ignoresCrc_next fun _ _ => ⟨rfl, rfl⟩
  | push j =>
    refine .withByte (get := (·.memRead j)) (fun _ _ => rfl) fun b => ignoresCrc_next fun s c => ⟨by simp, ?_⟩
    exact withCrc_push s c b

/-- Settles O16: each operation is put together from parts that ignore `crc`. -/
theorem onlyTheChecksumCommandsTouchTheCrc : Obligations.OnlyTheChecksumCommandsTouchTheCrc :=
  ⟨fun _ s t c hinit hupd hrd h => exec_ignoresCrc hinit hupd hrd s t c h,
    fun m s t c h => execMicro_ignoresCrc m s t c h⟩

end Sys2Proof.Machine
end

section
/-! The Frame Encoder (spec/41_frame_encoder.md), and the commands of the Line Configuration (spec/42_config.md) and of
the Message Buffer (spec/43_message.md) that are one micro-step. -/

namespace Sys2Proof.Machine

/-! ### The Frame Encoder -/

/-- The nine levels of a frame, one by one (R94). -/
theorem frameLevels_eq (b : Byte) (rev : Flag) :
    frameLevels b rev =
      [startBitLevel rev, dataBitLevel b 0 rev, dataBitLevel b 1 rev, dataBitLevel b 2 rev, dataBitLevel b 3 rev,
        dataBitLevel b 4 rev, dataBitLevel b 5 rev, dataBitLevel b 6 rev, stopBitLevel rev] := rfl

/-- The data bits of a frame do not see bit 7 of the byte. -/
theorem dataBitLevel_xor_bit7 (b : Byte) (rev : Flag) {i : Nat} (hi : i < 7) :
    dataBitLevel (b ^^^ 0x80#8) i rev = dataBitLevel b i rev := by
  have hzero : ∀ i < 7, (0x80#8 : Byte).extractLsb' i 1 = 0#1 := by decide
  rw [dataBitLevel, dataBitLevel, BitVec.extractLsb'_xor, hzero i hi, BitVec.xor_zero]

/-- Settles O18: the levels one by one, and each data bit without bit 7. -/
theorem frameIsStartSevenBitsStop : Obligations.FrameIsStartSevenBitsStop := by
  refine fun b => ⟨?_, fun rev => ?_⟩
  · simp only [frameLevels_eq, dataBitLevel, BitVec.xor_zero]
    rfl
  · simp [frameLevels_eq, dataBitLevel_xor_bit7]

/-- Settles O19: the three functions complement, so every level of the frame does. -/
theorem reversePolarityComplementsEveryLevel : Obligations.ReversePolarityComplementsEveryLevel := by
  refine ⟨startBitLevel_reversed, stopBitLevel_reversed, dataBitLevel_reversed, fun b => ?_⟩
  simp only [frameLevels_eq, startBitLevel_reversed, stopBitLevel_reversed, dataBitLevel_reversed, List.map_cons,
    List.map_nil]

/-! ### The Line Configuration -/

/-- Settles O23: the quotient by a timestep of at least 1, whatever answers for 0, and the fault. -/
theorem getBaudReturnsTheInverse : Obligations.GetBaudReturnsTheInverse := by
  refine ⟨decode_getBaud, fun s => ⟨fun ts hts h => ?_, fun ts hts _ => ⟨_, exec_getBaud_of_written hts⟩,
    withCfg_of_unwritten⟩⟩
  rw [exec_getBaud_of_written hts, baudOf, floorDiv_of_pos _ h]

/-- Settles O25: the words and meanings of the three setters. -/
theorem flagSettersStoreTheirFlag : Obligations.FlagSettersStoreTheirFlag :=
  fun f _ => ⟨⟨decode_setCksum f, rfl⟩, ⟨decode_setRev f, rfl⟩, ⟨decode_setEcho f, rfl⟩⟩

/-- The legal stop-bit counts as numbers (R110). -/
theorem stopLegal_iff_toNat (h : BitVec 3) : stopLegal h = true ↔ h.toNat = 2 ∨ h.toNat = 3 ∨ h.toNat = 4 := by
  rw [stopLegal_iff]
  bv_omega

/-- Settles O27: the counts that SETSTOP stores are those that `stopLegal` admits. -/
theorem setStopAcceptsTwoThreeFour : Obligations.SetStopAcceptsTwoThreeFour := by
  refine fun h s => ⟨decode_setStop h, fun hlegal => ?_, fun hillegal => ?_⟩
  · exact if_pos ((stopLegal_iff_toNat h).mpr hlegal)
  · exact if_neg (mt (stopLegal_iff_toNat h).mp hillegal)

/-! ### The commands of the Message Buffer -/

/-- Reading after an append: the new byte at the old length, every other index as before. -/
theorem memRead_appendByte {s : State} (b : Byte) (hroom : s.hasRoom 1 = true) (a : Nat) :
    (s.appendByte b).memRead a = if a = s.msgLen.toNat then some b else s.memRead a := by
  rw [State.memRead, appendByte_toNat b hroom, State.appendByte_msg]
  by_cases ha : a = s.msgLen.toNat
  · subst ha
    simp
  · have hlt : a < s.msgLen.toNat + 1 ↔ a < s.msgLen.toNat := by omega
    simp [memLookup_memStore_ne _ _ ha, ha, hlt, State.memRead]

/-- Settles O30: with room for one byte the append, without the refusal. -/
theorem msgPutAppendsOneByte : Obligations.MsgPutAppendsOneByte := by
  refine fun b s => ⟨decode_msgPut b, fun hlt => ?_, fun hle => ?_⟩
  · have hroom : s.hasRoom 1 = true := hasRoom_iff.mpr hlt
    refine ⟨s.appendByte b, if_pos hroom, rfl, appendByte_toNat b hroom, ?_, fun a ha => ?_⟩
    · rw [memRead_appendByte b hroom, if_pos rfl]
    · rw [memRead_appendByte b hroom, if_neg ha]
  · have hfull : ¬ s.hasRoom 1 = true := by
      rw [hasRoom_iff]
      omega
    exact if_neg hfull

/-- Settles O31: its word and its meaning. -/
theorem msgLenReturnsTheLength : Obligations.MsgLenReturnsTheLength := ⟨decode_msgLen, fun _ => rfl⟩

/-- Below the length MSG.GET reads its byte (R124). -/
theorem exec_msgGet_of_lt {i : BitVec 16} {s : State} (h : i.toNat < s.msgLen.toNat) :
    exec (.msgGet i) s = withByte (memLookup s.msg i.toNat) fun b => .next (s.respond (zext32 b)) := by
  have hlt : ¬ s.msgLen ≤ i := by simpa [BitVec.le_def] using h
  have hread : s.memRead i.toNat = memLookup s.msg i.toNat := if_pos h
  rw [← hread]
  exact if_neg hlt

/-- Settles O32: a readable byte, no byte below the length, and an index past it. -/
theorem msgGetReturnsTheByte : Obligations.MsgGetReturnsTheByte := by
  refine fun i s => ⟨decode_msgGet i, fun b hb => ?_, fun hle => ?_, fun hlt hnone => ?_⟩
  · obtain ⟨hlt, hb⟩ : i.toNat < s.msgLen.toNat ∧ memLookup s.msg i.toNat = some b := by
      simpa [State.memRead] using hb
    rw [exec_msgGet_of_lt hlt, hb]
    rfl
  · exact if_pos (BitVec.le_def.mpr hle)
  · rw [exec_msgGet_of_lt hlt, hnone, withByte_none]

/-! ### Augmentation -/

/-- The state in which a command taken from the port runs: the words `ws` and the schedule `ts` are left. -/
def State.issued (s : State) (ws : List Word) (ts : List Context) : State := { s with port := ws, turns := ts }

/-- The bytes that augmentation needs room for, by the mode (R128). -/
theorem augmentNeed_eq (mode : Flag) : augmentNeed mode = if mode = 1#1 then 6 else 1 := by
  simp only [augmentNeed, isCrc16_iff]

/-- The bytes that augmentation appends, by the mode (R126 to R128). -/
theorem augmentTail_eq (mode : Flag) (bs : List Byte) :
    augmentTail mode bs = (if mode = 1#1 then suffix (crc16 bs) else []) ++ [0x0A#8] := by
  simp only [augmentTail, isCrc16_iff]
  rfl

/-- The state with the message `bs` augmented. -/
def State.augmented (s : State) (mode : Flag) (bs : List Byte) : State := s.appendBytes (augmentTail mode bs)

section
variable {s : State} {mode : Flag} {bs : List Byte}

/-- What fits the buffer leaves room for the bytes that augmentation appends. -/
theorem hasRoom_augmentTail (hroom : s.msgLen.toNat + (if mode = 1#1 then 6 else 1) ≤ s.msgCap.toNat) :
    s.hasRoom (augmentTail mode bs).length = true := by
  rw [augmentTail_length, hasRoom_iff, augmentNeed_eq]
  exact hroom

/-- The augmented message (R128). -/
theorem augmented_message (hb : s.message = some bs)
    (hroom : s.msgLen.toNat + (if mode = 1#1 then 6 else 1) ≤ s.msgCap.toNat) :
    (s.augmented mode bs).message = some (bs ++ (if mode = 1#1 then suffix (crc16 bs) else []) ++ [0x0A#8]) := by
  rw [State.augmented, message_appendBytes hb _ (hasRoom_lt (hasRoom_augmentTail hroom)), augmentTail_eq,
    List.append_assoc]

/-- The length of the augmented message (R128). -/
theorem augmented_msgLen (hroom : s.msgLen.toNat + (if mode = 1#1 then 6 else 1) ≤ s.msgCap.toNat) :
    (s.augmented mode bs).msgLen.toNat = s.msgLen.toNat + (if mode = 1#1 then 6 else 1) := by
  rw [State.augmented, State.appendBytes_msgLen _ _ (hasRoom_lt (hasRoom_augmentTail hroom)), augmentTail_length,
    augmentNeed_eq]

/-- Every byte already there reads as before (R128). -/
theorem augmented_memRead (hroom : s.msgLen.toNat + (if mode = 1#1 then 6 else 1) ≤ s.msgCap.toNat) {a : Nat}
    (ha : a < s.msgLen.toNat) : (s.augmented mode bs).memRead a = s.memRead a := by
  have ha' : a < (s.augmented mode bs).msgLen.toNat := by
    rw [augmented_msgLen hroom]
    omega
  rw [State.memRead, State.memRead, if_pos ha', if_pos ha]
  exact memLookup_appendBytes_lt s _ (hasRoom_lt (hasRoom_augmentTail hroom)) ha

/-- Augmentation changes `MSG` and its length, and nothing else (R126). -/
theorem augmented_eq :
    s.augmented mode bs = { s with msg := (s.augmented mode bs).msg, msgLen := (s.augmented mode bs).msgLen } := by
  have happend (cs : List Byte) (u : State) :
      u.appendBytes cs = { u with msg := (u.appendBytes cs).msg, msgLen := (u.appendBytes cs).msgLen } := by
    induction cs generalizing u with
    | nil => rfl
    | cons c cs ih => exact ih (u.appendByte c)
  exact happend _ s

/-- An augmented message that fits the buffer leaves room for what augmentation appends, and is the message then. -/
theorem augmented_of_fits {new : List Byte} (hb : s.message = some bs)
    (hnew : new = bs ++ (if mode = 1#1 then suffix (crc16 bs) else []) ++ [0x0A#8])
    (hfits : new.length ≤ s.msgCap.toNat) :
    s.msgLen.toNat + (if mode = 1#1 then 6 else 1) ≤ s.msgCap.toNat ∧ (s.augmented mode bs).message = some new ∧
      (s.augmented mode bs).msgLen.toNat = new.length := by
  have hlen : new.length = s.msgLen.toNat + (if mode = 1#1 then 6 else 1) := by
    have hbytes : bs.length = s.msgLen.toNat := memBytes_length hb
    rw [hnew, List.length_append, List.length_append, hbytes]
    split <;> simp [suffix_length]
  have hroom : s.msgLen.toNat + (if mode = 1#1 then 6 else 1) ≤ s.msgCap.toNat := hlen ▸ hfits
  exact ⟨hroom, hnew ▸ augmented_message hb hroom, (augmented_msgLen hroom).trans hlen.symm⟩

/-- Augmentation of a message with room for it. -/
theorem augment_eq (hm : s.cksum = some mode) (hb : s.message = some bs)
    (hroom : s.msgLen.toNat + (if mode = 1#1 then 6 else 1) ≤ s.msgCap.toNat) (k : State → Result) :
    augment s k = k (s.augmented mode bs) := by
  have hr : s.hasRoom (augmentNeed mode) = true := augmentTail_length mode bs ▸ hasRoom_augmentTail hroom
  exact augment_of_room hm hr hb

end

/-- Settles O36: the mode is read first, and the room tested before anything is appended. -/
theorem augmentationStopsWithoutModeOrRoom : Obligations.AugmentationStopsWithoutModeOrRoom := by
  have hstops (s : State) (k : State → Result) :
      (s.cksum = none → augment s k = .fault (.cfgUnwritten .cksum)) ∧
        (∀ mode, s.cksum = some mode → s.msgCap.toNat < s.msgLen.toNat + (if mode = 1#1 then 6 else 1) →
          augment s k = .fault (.msgOverflow s.msgLen)) := by
    refine ⟨withCfg_of_unwritten, fun mode hm hlt => augment_of_no_room hm ?_⟩
    rw [← Bool.not_eq_true, hasRoom_iff, augmentNeed_eq]
    omega
  rintro i s (rfl | rfl)
  · rw [exec_txMsg]
    exact hstops s _
  · rw [exec_txAsync]
    exact hstops s _

theorem length_txMsgRest (n : Nat) : (txMsgRest n).length = 19 * n := by
  have hframe : ∀ j, (txbSteps (.message j)).length = 19 := fun _ => rfl
  simp [txMsgRest, hframe, Nat.mul_comm]

/-- Settles O34: augmentation, and the TXB of each byte left to run. -/
theorem txMsgAugmentsAndStarts : Obligations.TxMsgAugmentsAndStarts := by
  intro s mode bs hm hb hroom
  exact ⟨_, (exec_txMsg s).trans (augment_eq hm hb hroom _), congrArg (State.leave · _) augmented_eq,
    augmented_message hb hroom, augmented_msgLen hroom, fun a => augmented_memRead hroom, rfl, length_txMsgRest _⟩

/-- Settles O35: the same augmentation, and the lock, the pushes and the unlock left to run. -/
theorem txAsyncAugmentsAndStarts : Obligations.TxAsyncAugmentsAndStarts := by
  intro s mode bs hm hb hroom
  exact ⟨_, (exec_txAsync s).trans (augment_eq hm hb hroom _), congrArg (State.leave · _) augmented_eq,
    augmented_message hb hroom, augmented_msgLen hroom, fun a => augmented_memRead hroom, rfl⟩

end Sys2Proof.Machine
end

section
/-! The Synchronous Transmitter (spec/44_sync_tx.md): the 19 micro-steps of TXB with no tick between them put one frame
on the line, those of TXMSG the frames of the message, and the delays of a frame. -/

namespace Sys2Proof.Machine

/-! ### TXB's first micro-step -/

/-- Settles O38: the start level on a configured line, and the field that the line lacks. -/
theorem txbDrivesTheStartBitFirst : Obligations.TxbDrivesTheStartBitFirst := by
  refine fun b s => ⟨decode_txb b, fun id rev hid hrev => ?_, fun h => ?_⟩
  · exact drive_of_written hid hrev
  · exact drive_fault_of_unwritten (s := s.leave (txbRest (.operand b))) h

/-! ### A run in the middle of a transmission -/

/-- `s` later in a transmission: the micro-steps `ms` and the schedule `ts` left, `es` emitted, the line at `l`. -/
def State.sent (s : State) (ms : List MicroStep) (ts : List Context) (es : List Event) (l : Option Level) : State :=
  { s with pending := ms, turns := ts, ev := s.ev ++ es, lineLevel := l }

/-- The events of a level of the line held for one bit period (R136). -/
def levelEvents (id : Byte) (tst : BitVec 32) (l : Level) : List Event :=
  [.lineSet id l, .delay tst.toNat, .delay tst.toNat]

/-- The events of the echo (R137, micro-step 17). -/
def echoEvents (ec : Flag) (b : Byte) : List Event := if isEchoOn ec = true then [.echo b] else []

/-- The events of the stop level and its hold (R137, micro-steps 18 and 19). -/
def stopEvents (id : Byte) (rev : Flag) (tst : BitVec 32) (sh : BitVec 3) : List Event :=
  [.lineSet id (stopBitLevel rev), .delay (stopDelay sh tst), .delay (stopDelay sh tst)]

/-- The data bits of a byte and their bit periods (R137, micro-steps 3 to 16). -/
def dataSteps (source : ByteSource) (ks : List (Fin 7)) : List MicroStep :=
  ks.flatMap fun k => [.driveData source k, .holdBit]

/-- TXB is its start bit, its seven data bits, the echo and the stop bit (R137). -/
theorem txbSteps_append (source : ByteSource) (ms : List MicroStep) :
    txbSteps source ++ ms =
      .driveStart :: .holdBit ::
        (dataSteps source [0, 1, 2, 3, 4, 5, 6] ++ .echo source :: .driveStop :: .holdStop :: ms) := rfl

/-- The events of a frame (R136, R137). -/
theorem syncFrame_eq (id : Byte) (rev : Flag) (tst : BitVec 32) (ec : Flag) (sh : BitVec 3) (b : Byte) :
    syncFrame id rev tst ec sh b =
      levelEvents id tst (startBitLevel rev) ++
      (([0, 1, 2, 3, 4, 5, 6] : List (Fin 7)).flatMap fun k => levelEvents id tst (dataBitLevel b k.val rev)) ++
      echoEvents ec b ++ stopEvents id rev tst sh := by
  simp only [echoEvents, isEchoOn_iff]
  rfl

section
variable {s : State} {m : MicroStep} {ms : List MicroStep} {ts : List Context} {es : List Event} {l : Option Level}

theorem sent_driveTo (id : Byte) (l' : Level) :
    (s.sent ms ts es l).driveTo id l' = s.sent ms ts (es ++ [Event.lineSet id l']) (some l') := by
  simp [State.sent, State.driveTo, State.emit]

theorem sent_emit (e : Event) : (s.sent ms ts es l).emit e = s.sent ms ts (es ++ [e]) l := by
  simp [State.sent, State.emit]

theorem sent_sourceByte (source : ByteSource) : (s.sent ms ts es l).sourceByte source = s.sourceByte source := by
  cases source <;> rfl

/-- The HOST runs the next micro-step of the transmission. -/
theorem run_sent_of_micro {t : State} (n : Nat) (h : execMicro m (s.sent ms ts es l) = .next t) :
    run (n + 1) (s.sent (m :: ms) (.host :: ts) es l) = run n t :=
  run_succ_of_micro n rfl rfl h

end

section
variable {s : State} {id : Byte} {rev : Flag} {tst : BitVec 32} {ec : Flag} {sh : BitVec 3}
  {ms : List MicroStep} {ts : List Context}

theorem SyncConfig.sent (hc : SyncConfig s id rev tst ec sh) (ms : List MicroStep) (ts : List Context)
    (es : List Event) (l : Option Level) : SyncConfig (s.sent ms ts es l) id rev tst ec sh :=
  ⟨hc.lineId, hc.rev, hc.timestep, hc.echo, hc.stopHalves⟩

/-- Driving the line in the middle of a transmission (R137). -/
theorem drive_sent (level : Flag → Level) (hc : SyncConfig s id rev tst ec sh) (es : List Event) (l : Option Level) :
    drive level (s.sent ms ts es l) =
      .next (s.sent ms ts (es ++ [Event.lineSet id (level rev)]) (some (level rev))) := by
  have hc := hc.sent ms ts es l
  rw [drive_of_written hc.lineId hc.rev, sent_driveTo]

theorem execMicro_driveStart_sent (hc : SyncConfig s id rev tst ec sh) (es : List Event) (l : Option Level) :
    execMicro .driveStart (s.sent ms ts es l) =
      .next (s.sent ms ts (es ++ [Event.lineSet id (startBitLevel rev)]) (some (startBitLevel rev))) :=
  drive_sent startBitLevel hc es l

theorem execMicro_driveStop_sent (hc : SyncConfig s id rev tst ec sh) (es : List Event) (l : Option Level) :
    execMicro .driveStop (s.sent ms ts es l) =
      .next (s.sent ms ts (es ++ [Event.lineSet id (stopBitLevel rev)]) (some (stopBitLevel rev))) :=
  drive_sent stopBitLevel hc es l

theorem execMicro_driveData_sent {source : ByteSource} {b : Byte} (hc : SyncConfig s id rev tst ec sh)
    (hb : s.sourceByte source = some b) (k : Fin 7) (es : List Event) (l : Option Level) :
    execMicro (.driveData source k) (s.sent ms ts es l) =
      .next (s.sent ms ts (es ++ [Event.lineSet id (dataBitLevel b k.val rev)]) (some (dataBitLevel b k.val rev))) := by
  have hc := hc.sent ms ts es l
  rw [execMicro, microDriveData_of_written hc.lineId hc.rev ((sent_sourceByte source).trans hb), sent_driveTo]

theorem execMicro_holdBit_sent (hc : SyncConfig s id rev tst ec sh) (es : List Event) (l : Option Level) :
    execMicro .holdBit (s.sent ms ts es l) =
      .next (s.sent ms ts (es ++ [Event.delay tst.toNat] ++ [Event.delay tst.toNat]) l) := by
  have hc := hc.sent ms ts es l
  rw [execMicro, microHoldBit_of_written hc.timestep, sent_emit, sent_emit]

theorem execMicro_echo_sent {source : ByteSource} {b : Byte} (hc : SyncConfig s id rev tst ec sh)
    (hb : s.sourceByte source = some b) (es : List Event) (l : Option Level) :
    execMicro (.echo source) (s.sent ms ts es l) =
      .next (s.sent ms ts (es ++ echoEvents ec b) l) := by
  have hc := hc.sent ms ts es l
  rw [execMicro, microEcho_of_written hc.echo ((sent_sourceByte source).trans hb), echoEvents]
  split
  · rw [sent_emit]
  · rw [List.append_nil]

theorem execMicro_holdStop_sent (hc : SyncConfig s id rev tst ec sh) (es : List Event) (l : Option Level) :
    execMicro .holdStop (s.sent ms ts es l) =
      .next (s.sent ms ts (es ++ [Event.delay (stopDelay sh tst)] ++ [Event.delay (stopDelay sh tst)]) l) := by
  have hc := hc.sent ms ts es l
  rw [execMicro, microHoldStop_of_written hc.stopHalves hc.timestep, sent_emit, sent_emit]

/-- A micro-step that drives the line, and the bit period after it (R136). -/
theorem run_level_and_hold {m : MicroStep} {es : List Event} {l : Option Level} {l' : Level} (n : Nat)
    (hc : SyncConfig s id rev tst ec sh)
    (h : ∀ ms ts, execMicro m (s.sent ms ts es l) = .next (s.sent ms ts (es ++ [Event.lineSet id l']) (some l'))) :
    run (n + 2) (s.sent (m :: .holdBit :: ms) (.host :: .host :: ts) es l) =
      run n (s.sent ms ts (es ++ levelEvents id tst l') (some l')) := by
  rw [run_sent_of_micro _ (h _ _), run_sent_of_micro _ (execMicro_holdBit_sent hc _ _)]
  simp [levelEvents]

/-- The data bits `ks` of the byte, each with its bit period (R137). -/
theorem run_dataBits {source : ByteSource} {b : Byte} (n : Nat) (hc : SyncConfig s id rev tst ec sh)
    (hb : s.sourceByte source = some b) (ks : List (Fin 7)) (es : List Event) (l : Option Level) :
    ∃ l', run (n + 2 * ks.length)
        (s.sent (dataSteps source ks ++ ms) (List.replicate (2 * ks.length) .host ++ ts) es l) =
      run n (s.sent ms ts (es ++ ks.flatMap fun k => levelEvents id tst (dataBitLevel b k.val rev)) l') := by
  induction ks generalizing es l with
  | nil => exact ⟨l, by simp [dataSteps]⟩
  | cons k ks ih =>
    obtain ⟨l', hrest⟩ := ih (es ++ levelEvents id tst (dataBitLevel b k.val rev)) _
    have hbit := run_level_and_hold (n + 2 * ks.length) (ms := dataSteps source ks ++ ms)
      (ts := List.replicate (2 * ks.length) .host ++ ts) hc fun _ _ => execMicro_driveData_sent hc hb k es l
    refine ⟨l', hbit.trans (hrest.trans ?_)⟩
    simp

/-- The last three micro-steps of TXB: the echo, the stop level and its hold (R137). -/
theorem run_echo_and_stop {source : ByteSource} {b : Byte} (n : Nat) (hc : SyncConfig s id rev tst ec sh)
    (hb : s.sourceByte source = some b) (es : List Event) (l : Option Level) :
    run (n + 3) (s.sent (.echo source :: .driveStop :: .holdStop :: ms) (.host :: .host :: .host :: ts) es l) =
      run n (s.sent ms ts (es ++ (echoEvents ec b ++ stopEvents id rev tst sh)) (some (stopBitLevel rev))) := by
  rw [run_sent_of_micro _ (execMicro_echo_sent hc hb es l), run_sent_of_micro _ (execMicro_driveStop_sent hc _ _),
    run_sent_of_micro _ (execMicro_holdStop_sent hc _ _)]
  simp [stopEvents]

/-- The 19 micro-steps of TXB put one frame on the line (R137). -/
theorem run_txbSteps {source : ByteSource} {b : Byte} (n : Nat) (hc : SyncConfig s id rev tst ec sh)
    (hb : s.sourceByte source = some b) (es : List Event) (l : Option Level) :
    run (n + 19) (s.sent (txbSteps source ++ ms) (List.replicate 19 .host ++ ts) es l) =
      run n (s.sent ms ts (es ++ syncFrame id rev tst ec sh b) (some (stopBitLevel rev))) := by
  obtain ⟨l', hdata⟩ := run_dataBits (ms := .echo source :: .driveStop :: .holdStop :: ms)
    (ts := .host :: .host :: .host :: ts) (n + 3) hc hb [0, 1, 2, 3, 4, 5, 6]
    (es ++ levelEvents id tst (startBitLevel rev)) (some (startBitLevel rev))
  rw [txbSteps_append]
  calc _ = _ := run_level_and_hold (n + 17) (ts := List.replicate 14 .host ++ .host :: .host :: .host :: ts) hc
        fun _ _ => execMicro_driveStart_sent hc es l
    _ = _ := hdata
    _ = _ := run_echo_and_stop n hc hb _ _
    _ = _ := by simp only [syncFrame_eq, List.append_assoc]

/-- The TXB of each byte of the message from index `j` on, in order (R140). -/
theorem run_txbs (n : Nat) (hc : SyncConfig s id rev tst ec sh) (bs : List Byte) (j : Nat)
    (hb : ∀ i, i < bs.length → s.memRead (j + i) = bs[i]?) (es : List Event) (l : Option Level) :
    ∃ l', run (n + 19 * bs.length)
        (s.sent (((List.range' j bs.length).flatMap fun j => txbSteps (.message j)) ++ ms)
          (List.replicate (19 * bs.length) .host ++ ts) es l) =
      run n (s.sent ms ts (es ++ bs.flatMap (syncFrame id rev tst ec sh)) l') ∧
      (bs ≠ [] ∨ l = some (stopBitLevel rev) → l' = some (stopBitLevel rev)) := by
  induction bs generalizing j es l with
  | nil => exact ⟨l, by simp⟩
  | cons b bs ih =>
    have hread : s.sourceByte (.message j) = some b := hb 0 (Nat.succ_pos _)
    obtain ⟨l', hrest, hl'⟩ := ih (j + 1)
      (fun i hi => by simpa [Nat.add_assoc, Nat.add_comm 1 i] using hb (i + 1) (Nat.succ_lt_succ hi))
      (es ++ syncFrame id rev tst ec sh b) (some (stopBitLevel rev))
    refine ⟨l', ?_, fun _ => hl' (.inr rfl)⟩
    have hsplit : List.replicate (19 * (b :: bs).length) Context.host ++ ts =
        List.replicate 19 .host ++ (List.replicate (19 * bs.length) .host ++ ts) := by
      rw [← List.append_assoc, ← List.replicate_add, List.length_cons, Nat.mul_succ, Nat.add_comm]
    rw [hsplit, List.length_cons, List.range'_succ, List.flatMap_cons, List.append_assoc]
    refine (run_txbSteps (n + 19 * bs.length) hc hread es l).trans (hrest.trans ?_)
    simp

end

/-! ### TXB and TXMSG -/

/-- Issuing TXB is the first of its 19 micro-steps (R137). -/
theorem step_txb {b : Byte} {s : State} {ws : List Word} {ts : List Context} (hp : s.pending = [])
    (hw : s.port = (0x40000000#32 ||| b.setWidth 32) :: ws) (hts : s.turns = .host :: ts) :
    step s = step { s with port := ws, pending := txbSteps (.operand b) } := by
  rw [step_of_legal hp hw (decode_txb b) hts, step_host (by exact hts), hostTurn_micro rfl]
  rfl

/-- Two states with the same first step have the same runs. -/
theorem core_run_succ_congr (M : Host.Core) (n : Nat) {s u : M.State} (h : M.step s = M.step u) :
    M.run (n + 1) s = M.run (n + 1) u := by
  rw [Host.Core.run, Host.Core.run, h]

/-- Settles O39: TXB's own 19 micro-steps, from the state in which the word is taken. -/
theorem txbTransmitsOneFrame : Obligations.TxbTransmitsOneFrame := by
  rintro b s ws ts id rev tst ec sh ⟨hid, hrev, htst, hec, hsh⟩ hp hw hts
  have hc : SyncConfig { s with port := ws } id rev tst ec sh := ⟨hid, hrev, htst, hec, hsh⟩
  have hstart : { s with port := ws, pending := txbSteps (.operand b) } =
      State.sent { s with port := ws } (txbSteps (.operand b) ++ []) (List.replicate 19 .host ++ ts) []
        s.lineLevel := by
    simp [State.sent, hts]
  rw [run, core_run_succ_congr Sys2Proof.core 18 (step_txb hp hw hts), hstart]
  refine (run_txbSteps 0 hc rfl [] s.lineLevel).trans ?_
  simp [State.sent, hp]
  rfl

/-- Settles O40: augmentation, and the TXB of each byte of the message it leaves. -/
theorem txMsgTransmitsTheAugmentedMessage : Obligations.TxMsgTransmitsTheAugmentedMessage := by
  rintro bs new mode s ws ts id rev tst ec sh ⟨hid, hrev, htst, hec, hsh⟩ hm hb hnew hfits hp hw hts
  have htaken : (1 + 19 * new.length) = 19 * new.length + 1 := Nat.add_comm _ _
  rw [htaken] at hts ⊢
  let u := s.issued ws (List.replicate (19 * new.length) .host ++ ts)
  obtain ⟨hroom, hmessage, hlen⟩ := augmented_of_fits (s := u) (mode := mode) hb hnew hfits
  have hc : SyncConfig (u.augmented mode bs) id rev tst ec sh := by
    rw [augmented_eq]
    exact ⟨hid, hrev, htst, hec, hsh⟩
  have hread (i : Nat) (_ : i < new.length) : (u.augmented mode bs).memRead (0 + i) = new[i]? := by
    rw [Nat.zero_add, memRead_of_message hmessage]
  obtain ⟨l, hrun, hl⟩ := run_txbs 0 (ms := []) (ts := ts) hc new 0 hread [] s.lineLevel
  have hstart : (u.augmented mode bs).leave (txMsgRest new.length) =
      (u.augmented mode bs).sent (((List.range' 0 new.length).flatMap fun j => txbSteps (.message j)) ++ [])
        (List.replicate (19 * new.length) .host ++ ts) [] s.lineLevel := by
    rw [augmented_eq]
    simp [State.sent, State.leave, txMsgRest, List.range_eq_range', u, State.issued]
  have hfirst : exec .txMsg u = .next ((u.augmented mode bs).leave (txMsgRest new.length)) := by
    rw [exec_txMsg, augment_eq (s := u) hm hb hroom, hlen]
  have hl : l = some (1#1 ^^^ rev) := hl (.inl (by simp [hnew]))
  rw [Nat.zero_add, ← hstart, hl] at hrun
  refine ⟨_, (run_succ_of_command _ hp hw decode_txMsg hts hfirst).trans hrun, hmessage, ?_⟩
  rw [augmented_eq]
  simp [State.sent, State.issued, hp, u]

/-! ### The delays of a frame -/

theorem sum_delays_levelEvents (id : Byte) (tst : BitVec 32) (l : Level) :
    ((levelEvents id tst l).map Event.delayArg).sum = 2 * tst.toNat := by
  simp [levelEvents, Event.delayArg, Nat.two_mul]

theorem sum_delays_echoEvents (ec : Flag) (b : Byte) : ((echoEvents ec b).map Event.delayArg).sum = 0 := by
  unfold echoEvents
  split <;> rfl

theorem sum_delays_stopEvents (id : Byte) (rev : Flag) (tst : BitVec 32) (sh : BitVec 3) :
    ((stopEvents id rev tst sh).map Event.delayArg).sum = 2 * stopDelay sh tst := by
  simp [stopEvents, Event.delayArg, Nat.two_mul]

/-- Eight levels of a bit period each, and the stop hold (R139). -/
theorem sum_delays_syncFrame (id : Byte) (rev : Flag) (tst : BitVec 32) (ec : Flag) (sh : BitVec 3) (b : Byte) :
    ((syncFrame id rev tst ec sh b).map Event.delayArg).sum = 16 * tst.toNat + 2 * stopDelay sh tst := by
  simp only [syncFrame_eq, List.map_append, List.sum_append, List.flatMap_cons, List.flatMap_nil, List.map_nil,
    List.sum_nil, sum_delays_levelEvents, sum_delays_echoEvents, sum_delays_stopEvents]
  omega

/-- Settles O41: the events are those of the frame, and the halves of the stop hold lose the odd microsecond. -/
theorem frameDelaysSumToItsBitPeriods : Obligations.FrameDelaysSumToItsBitPeriods := by
  intro b s ws ts id rev tst ec sh hc hp hw hts
  refine ⟨_, _, txbTransmitsOneFrame b s ws ts id rev tst ec sh hc hp hw hts, rfl, ?_⟩
  have hmul : (16 + sh.toNat) * tst.toNat = 16 * tst.toNat + sh.toNat * tst.toNat := Nat.add_mul _ _ _
  rw [sum_delays_syncFrame, stopDelay, hmul]
  generalize sh.toNat * tst.toNat = halves
  omega

end Sys2Proof.Machine
end

section
/-! The Asynchronous Engine (spec/45_async_tx.md): the pushes of a TXASYNC, alone and with ticks among them, BUFSZ, the
tick in phase SENDING, and the ticks that end a run (spec/70_reset_and_hazards.md R214). -/

namespace Sys2Proof.Machine

/-! ### Pushes -/

/-- A push keeps of its byte what the queue has room for (R156). -/
theorem push_eq (s : State) (b : Byte) :
    s.push b = { s with queue := s.queue ++ [b].take (255 - s.queue.length) } := by
  by_cases hq : s.queue.length < 255
  · obtain ⟨k, hk⟩ : ∃ k, 255 - s.queue.length = k + 1 := ⟨254 - s.queue.length, by omega⟩
    rw [State.push, State.qsize, if_pos hq, hk, List.take_succ_cons, List.take_nil]
  · have hzero : 255 - s.queue.length = 0 := by omega
    rw [State.push, State.qsize, if_neg hq, hzero, List.take_zero, List.append_nil]

/-- One push and then more keep of all the bytes what the queue had room for. -/
theorem append_take_cons (q : List Byte) (b : Byte) (bs : List Byte) :
    q ++ [b].take (255 - q.length) ++ bs.take (255 - (q ++ [b].take (255 - q.length)).length) =
      q ++ (b :: bs).take (255 - q.length) := by
  by_cases hq : q.length < 255
  · obtain ⟨k, hk⟩ : ∃ k, 255 - q.length = k + 1 := ⟨254 - q.length, by omega⟩
    have hk' : 255 - (q.length + 1) = k := by omega
    simp [hk, hk']
  · have hzero : 255 - q.length = 0 := by omega
    simp [hzero]

theorem execMicro_push {s : State} {j : Nat} {b : Byte} (hb : s.memRead j = some b) :
    execMicro (.push j) s = .next { s with queue := s.queue ++ [b].take (255 - s.queue.length) } := by
  rw [execMicro, microPush, hb, withByte_some, push_eq]

/-- Settles O45: with room the queue takes the byte, and without it the state is as it was. -/
theorem pushIntoAFullQueueIsLost : Obligations.PushIntoAFullQueueIsLost := by
  intro j b s hb
  have hpush : execMicro (.push j) s = .next (s.push b) := by rw [execMicro, microPush, hb, withByte_some]
  rw [hpush]
  exact ⟨fun hlt => congrArg _ (if_pos hlt), fun hle => congrArg _ (if_neg (Nat.not_lt.mpr hle))⟩

/-- Settles O46: an occupancy within the capacity fits the response word. -/
theorem bufSzReturnsTheOccupancy : Obligations.BufSzReturnsTheOccupancy := by
  refine ⟨decode_bufSz, fun s => ⟨BitVec.ofNat 32 s.queue.length, rfl, fun hle => ?_⟩⟩
  rw [BitVec.toNat_ofNat, Nat.mod_eq_of_lt (by omega)]

/-! ### TXASYNC without a tick -/

/-- The state after the pushes of `bs` and the unlock, with the schedule `ts` left (R154). -/
def State.afterPushes (s : State) (bs : List Byte) (ts : List Context) : State :=
  { s with pending := [], turns := ts, lock := false, queue := s.queue ++ bs.take (255 - s.queue.length) }

/-- The pushes of `k` bytes from byte `j` on, and the unlock (R152). -/
def pushesOf (j k : Nat) : List MicroStep := (List.range' j k).map .push ++ [.clearLock]

/-- The state with the micro-steps `ms` and the schedule `ts` left. -/
def State.left (s : State) (ms : List MicroStep) (ts : List Context) : State := { s with pending := ms, turns := ts }

/-- The pushes left and the unlock, no tick between them, queue what fits (R152, R156). -/
theorem run_pushes {s : State} {ts : List Context} (bs : List Byte) (j : Nat)
    (hp : s.pending = pushesOf j bs.length) (hts : s.turns = List.replicate (bs.length + 1) Context.host ++ ts)
    (hb : ∀ i, i < bs.length → s.memRead (j + i) = bs[i]?) :
    run (bs.length + 1) s = .next (s.afterPushes bs ts) := by
  induction bs generalizing s j with
  | nil =>
    rw [State.afterPushes, List.take_nil, List.append_nil]
    exact run_succ_of_micro 0 hp hts rfl
  | cons b bs ih =>
    have hpush := execMicro_push (s := s.left (pushesOf (j + 1) bs.length)
      (List.replicate (bs.length + 1) .host ++ ts)) (hb 0 (Nat.succ_pos _))
    refine (run_succ_of_micro (bs.length + 1) hp hts hpush).trans ((ih (j + 1) rfl rfl fun i hi => ?_).trans ?_)
    · have hi := hb (i + 1) (Nat.succ_lt_succ hi)
      rwa [← Nat.add_assoc, Nat.add_right_comm] at hi
    · simp only [State.afterPushes, State.left, append_take_cons]

/-- Settles O43: augmentation, the lock, and the pushes of the augmented message. -/
theorem txAsyncQueuesWhatFits : Obligations.TxAsyncQueuesWhatFits := by
  intro bs new mode s ws ts hm hb hnew hfits hp hw hts
  let u := s.issued ws (List.replicate (new.length + 2) .host ++ ts)
  obtain ⟨hroom, hmessage, hlen⟩ := augmented_of_fits (s := u) (mode := mode) hb hnew hfits
  have hfirst : exec .txAsync u = .next ((u.augmented mode bs).leave (txAsyncRest new.length)) := by
    rw [exec_txAsync, augment_eq (s := u) hm hb hroom, hlen]
  have hturns : (u.augmented mode bs).turns = .host :: (List.replicate (new.length + 1) .host ++ ts) := by
    rw [augmented_eq]
    rfl
  have hlock := run_succ_of_micro (s := (u.augmented mode bs).leave (.setLock :: pushesFrom 0 new.length))
    (new.length + 1) rfl hturns rfl
  have hpushes := run_pushes (s := ((u.augmented mode bs).left (pushesFrom 0 new.length)
    (List.replicate (new.length + 1) .host ++ ts)).holdLock) new 0 rfl rfl fun i _ => by
      rw [Nat.zero_add]
      exact memRead_of_message hmessage i
  rw [txAsyncRest_eq] at hfirst
  refine ⟨_, (run_succ_of_command _ hp hw decode_txAsync hts hfirst).trans (hlock.trans hpushes), hmessage, ?_⟩
  rw [augmented_eq]
  simp [State.afterPushes, State.holdLock, State.left, State.issued, hp, u]

/-! ### TXASYNC with ticks among its pushes -/

/-- A tick under the lock leaves the queue, the lock, the message and the command in progress alone (R161). -/
theorem exec_tick_locked {s t : State} (h : exec .tick s = .next t) (hl : s.lock = true) :
    t.queue = s.queue ∧ t.lock = true ∧ (∀ a, t.memRead a = s.memRead a) ∧ t.pending = s.pending := by
  cases exec_tick_next h with
  | pop b q id l _ hfree => cases hl.symm.trans hfree
  | wait | send | finish => exact ⟨rfl, hl, fun _ => rfl, rfl⟩

/-- A schedule that ends with the HOST's turn is that turn alone, or goes on to end with it. -/
theorem getLast?_host_of_cons {c : Context} {sched : List Context} (h : (c :: sched).getLast? = some .host) :
    (sched = [] ∧ c = .host) ∨ sched.getLast? = some .host := by
  rw [List.getLast?_cons] at h
  cases hs : sched.getLast? with
  | none =>
    rw [hs] at h
    exact .inl ⟨List.getLast?_eq_none_iff.mp hs, Option.some.inj h⟩
  | some d =>
    rw [hs] at h
    exact .inr h

/-- The pushes left and the unlock, with any ticks among them, queue what fits (R154, R168). -/
theorem run_pushes_among_ticks {s t : State} {sched ts : List Context} {bs : List Byte} {j : Nat} (hl : s.lock = true)
    (hp : s.pending = pushesOf j bs.length) (hts : s.turns = sched ++ ts)
    (hb : ∀ i, i < bs.length → s.memRead (j + i) = bs[i]?) (hcount : sched.count .host = bs.length + 1)
    (hlast : sched.getLast? = some .host) (hrun : run sched.length s = .next t) :
    t.queue = s.queue ++ bs.take (255 - s.queue.length) ∧ t.lock = false ∧ t.pending = [] ∧ t.turns = ts := by
  induction sched generalizing s bs j with
  | nil => cases hlast
  | cons c sched ih =>
    obtain ⟨u, hu, hrest⟩ := run_succ_next hrun
    cases c with
    | tick =>
      rw [step_tick hts] at hu
      obtain ⟨hqueue, hlock, hread, hpending⟩ := exec_tick_locked hu hl
      have hlast : sched.getLast? = some .host := by
        obtain ⟨-, hc⟩ | hlast := getLast?_host_of_cons hlast
        · cases hc
        · exact hlast
      rw [List.count_cons_of_ne (by decide)] at hcount
      have hdone := ih hlock (hpending.trans hp) (exec_tick_turns hu) (fun i hi => (hread _).trans (hb i hi)) hcount
        hlast hrest
      rwa [hqueue] at hdone
    | host =>
      rw [List.count_cons_self] at hcount
      have hcount := Nat.succ.inj hcount
      rw [step_host hts] at hu
      cases bs with
      | nil =>
        rw [hostTurn_micro (by exact hp)] at hu
        obtain ⟨rfl, -⟩ | hlast := getLast?_host_of_cons hlast
        · cases hu
          cases hrest
          exact ⟨by simp, rfl, rfl, rfl⟩
        · exact absurd (List.mem_of_getLast? hlast) (List.count_eq_zero.mp hcount)
      | cons b bs =>
        have hpush := execMicro_push (s := s.left (pushesOf (j + 1) bs.length)
          (sched ++ ts)) (hb 0 (Nat.succ_pos _))
        rw [hostTurn_micro (by exact hp)] at hu
        obtain rfl := Host.Outcome.next.inj (hpush.symm.trans hu)
        obtain ⟨rfl, -⟩ | hlast := getLast?_host_of_cons hlast
        · cases hcount
        have hread (i : Nat) (hi : i < bs.length) : s.memRead (j + 1 + i) = bs[i]? := by
          have hi := hb (i + 1) (Nat.succ_lt_succ hi)
          rwa [← Nat.add_assoc, Nat.add_right_comm] at hi
        have hdone := ih (by exact hl) (by rfl) (by rfl) (by exact hread) hcount hlast hrest
        simpa only [State.left, append_take_cons] using hdone

/-- Settles O44: the pushes of the whole message, from the state in which the lock is set. -/
theorem noTickPopsDuringTxAsync : Obligations.NoTickPopsDuringTxAsync := by
  intro bs s t sched ts hl hmessage hp hts hcount hlast hrun
  refine run_pushes_among_ticks (j := 0) hl ?_ hts (fun i _ => ?_) hcount hlast hrun
  · rw [hp, List.range_eq_range', pushesOf]
  · rw [Nat.zero_add, memRead_of_message hmessage]

/-! ### The tick in phase SENDING -/

/-- Settles O48: a data bit left or none, on a line configured or not. -/
theorem tickInSendingDrivesTheNextBit : Obligations.TickInSendingDrivesTheNextBit := by
  refine fun s hph => ⟨fun id rev hid hrev => ⟨fun b hbit hb => ?_, fun hbit _ => ?_, fun hlast => ?_⟩, fun h => ?_⟩
  · have hread : s.readCurByte = b := by rw [State.readCurByte, hb, Option.getD_some]
    rw [exec_tick_of_bit_left hph hbit, hread]
    exact drive_of_written hid hrev
  · rw [exec_tick_of_bit_left hph hbit]
    exact ⟨_, drive_of_written hid hrev⟩
  · rw [exec_tick_of_no_bit_left hph (by omega)]
    exact drive_of_written hid hrev
  · by_cases hbit : s.bitIdx.toNat < 7
    · rw [exec_tick_of_bit_left hph hbit]
      exact drive_fault_of_unwritten (s := { s with bitIdx := s.bitIdx + 1#3 }) h
    · rw [exec_tick_of_no_bit_left hph hbit]
      exact drive_fault_of_unwritten (s := { s with phase := .stop }) h

/-! ### The end of a run -/

/-- The HOST has nothing left to do. -/
def HostDone (s : State) : Prop := s.port = [] ∧ s.pending = []

theorem step_keeps_hostDone {s t : State} (hs : HostDone s) (h : step s = .next t) : HostDone t := by
  obtain ⟨hport, hpending⟩ := hs
  cases step_effect h with
  | tick ts _ h => cases h <;> exact ⟨hport, hpending⟩
  | micro ts m ms _ hp => cases hpending.symm.trans hp
  | command ts w ws i _ _ hw => cases hport.symm.trans hw
  | idle ts _ _ _ h => exact h ▸ ⟨hport, hpending⟩

/-- With nothing left for the HOST the run is over when the engine needs no tick (R214). -/
theorem HostDone.runOver_iff {s : State} (hs : HostDone s) : RunOver s ↔ ticksLeft s = 0 := by
  rw [ticksLeft_eq_zero_iff, RunOver]
  exact ⟨fun h => h.2.2, fun h => ⟨hs.1, hs.2, h⟩⟩

/-- Each of the ticks the engine needs leaves it one fewer. -/
theorem run_ticks_left {s : State} {ts : List Context} {id : Byte} {rev : Flag} {sh : BitVec 3}
    (hc : TickConfig s id rev sh) (hl : s.lock = false)
    (hts : s.turns = List.replicate (ticksLeft s) Context.tick ++ ts) {k : Nat} (hk : k ≤ ticksLeft s) :
    ∃ u, run k s = .next u ∧ ticksLeft u = ticksLeft s - k := by
  obtain ⟨n, hn⟩ := Nat.exists_eq_add_of_le' hk
  have hd : Draining id rev sh (s.ev ++ eventsLeft id rev sh s) (n + k) s := ⟨hc, hl, hn, rfl⟩
  rw [hn, Nat.add_comm, List.replicate_add, List.append_assoc] at hts
  obtain ⟨u, hu, hleft, -⟩ := hd.run_ticks hts
  exact ⟨u, hu, by rw [hleft.ticks, hn, Nat.add_sub_cancel]⟩

/-- Settles O51: the run is over when no tick is left, and after `k` of them all but `k` are. -/
theorem enoughTicksEndTheRun : Obligations.EnoughTicksEndTheRun := by
  intro s ts id rev sh hc hport hpending hl hts
  have hdone {k : Nat} {u : State} (hu : run k s = .next u) : HostDone u :=
    run_keeps (fun _ _ => step_keeps_hostDone) ⟨hport, hpending⟩ hu
  refine ⟨?_, fun k hk => ?_⟩
  · obtain ⟨t, ht, hleft⟩ := run_ticks_left hc hl hts le_rfl
    have hidle : EngineIdle t := ticksLeft_eq_zero_iff.mp (hleft.trans (Nat.sub_self _))
    have hover : RunOver t := (hdone ht).runOver_iff.mpr (ticksLeft_eq_zero_iff.mpr hidle)
    exact ⟨t, ht, hover, exec_tick_of_waiting hidle.2 (.inr hidle.1)⟩
  · obtain ⟨u, hu, hleft⟩ := run_ticks_left hc hl hts (Nat.le_of_lt hk)
    refine ⟨u, hu, fun hover => ?_⟩
    have hzero := (hdone hu).runOver_iff.mp hover
    rw [hleft] at hzero
    exact Nat.sub_ne_zero_of_lt hk hzero

end Sys2Proof.Machine
end
